-- ==== Sys2Proof/Word.lean ====
section
/-! DEFINITION. The machine integer of 00_scope.md R8 and the plain data types of R15 that an instruction is made of.
A machine integer is Lean's `Int`, as the spec writes it: every cell, `ip`, `bp`, literal and result is one. Results are
computed in the mathematical integers, and a finite width only bounds them: it never wraps (R8). No rule reads a bit (R9). -/

namespace Sys2Proof

/-- The parameter `W` of R6: `none` is `inf`, `some n` is a two's complement width of `n` bits. -/
abbrev Width := Option Nat

/-- Whether `v` is an `Int` of the width: always with `inf`, else `-2^(n-1) <= v <= 2^(n-1) - 1` (R8). -/
def fits : Width → Int → Bool
  | none, _ => true
  | some n, v => decide (-((2 ^ (n - 1) : Nat) : Int) ≤ v) && decide (v < ((2 ^ (n - 1) : Nat) : Int))

/-- The ten operation kinds (R15, R84). -/
inductive Kind where
  | add | multiply | input | output | jumpIfTrue | jumpIfFalse
  | testLessThan | testEqual | adjustBase | halt
  deriving DecidableEq, Repr

/-- The three addressing modes (R15, R86). -/
inductive Mode where
  | address | immediate | relative
  deriving DecidableEq, Repr

/-- The decoder's output: a kind and the modes of the three slots (R15). -/
structure OpCode where
  kind : Kind
  m1 : Mode
  m2 : Mode
  m3 : Mode
  deriving DecidableEq, Repr

/-- An operand literal tagged with the mode of its slot (R15). -/
structure Operand where
  mode : Mode
  lit : Int
  deriving DecidableEq, Repr

end Sys2Proof
end

