-- ==== Sys2Proof/Syntax.lean ====
section
/-! DEFINITION. The typed instruction of 00_scope.md R15, one constructor per row of spec/opcode_table.json. -/

namespace Sys2Proof

/-- The ten typed instructions (R15, R84). `o1 o2 o3` are the operands the Machine uses; `u1 u2 u3` are the
mode digits of the slots the kind does not use, which the opcode integer holds too (R85): they have no effect but
to be part of the opcode integer that an AddressingError reports (R222).
DESIGN CHOICE, safe (log 7): R15's variants drop them; keeping them lets encode and decode be inverse. -/
inductive Instr where
  /-- ADD, op 01: `dest <- op1 + op2` (R170). -/
  | add (o1 o2 o3 : Operand)
  /-- MUL, op 02: `dest <- op1 * op2` (R171). -/
  | multiply (o1 o2 o3 : Operand)
  /-- IN, op 03: `dest <- next input value` (R180). -/
  | input (o1 : Operand) (u2 u3 : Mode)
  /-- OUT, op 04: `emit value(src)` (R185). -/
  | output (o1 : Operand) (u2 u3 : Mode)
  /-- JT, op 05: `if value(cond) /= 0: ip <- value(target)` (R190). -/
  | jumpIfTrue (o1 o2 : Operand) (u3 : Mode)
  /-- JF, op 06: `if value(cond) = 0: ip <- value(target)` (R191). -/
  | jumpIfFalse (o1 o2 : Operand) (u3 : Mode)
  /-- LT, op 07: `dest <- 1 if value(op1) < value(op2) else 0` (R200). -/
  | testLessThan (o1 o2 o3 : Operand)
  /-- EQ, op 08: `dest <- 1 if value(op1) = value(op2) else 0` (R201). -/
  | testEqual (o1 o2 o3 : Operand)
  /-- ARB, op 09: `bp <- bp + value(delta)` (R210). -/
  | adjustBase (o1 : Operand) (u2 u3 : Mode)
  /-- HLT, op 99: `stop execution` (R211). -/
  | halt (u1 u2 u3 : Mode)
  deriving DecidableEq, Repr

end Sys2Proof
end

