-- ==== Sys2Proof/WellFormed.lean ====
section
/-! DEFINITION. Which typed instructions can stand in a machine's memory and execute: the destination names a cell
(40_decoder.md R117) and every literal is an `Int` of the width (R8, R88). -/

namespace Sys2Proof

/-- The literals of an instruction, operand 1 first: the contents of the cells `ip+1 .. ip+arity` (R80). -/
def Instr.literals : Instr → List Int
  | .add o1 o2 o3 => [o1.lit, o2.lit, o3.lit]
  | .multiply o1 o2 o3 => [o1.lit, o2.lit, o3.lit]
  | .input o1 _ _ => [o1.lit]
  | .output o1 _ _ => [o1.lit]
  | .jumpIfTrue o1 o2 _ => [o1.lit, o2.lit]
  | .jumpIfFalse o1 o2 _ => [o1.lit, o2.lit]
  | .testLessThan o1 o2 o3 => [o1.lit, o2.lit, o3.lit]
  | .testEqual o1 o2 o3 => [o1.lit, o2.lit, o3.lit]
  | .adjustBase o1 _ _ => [o1.lit]
  | .halt _ _ _ => []

/-- The destination operand, of the kinds that have one (`HasDest` of R117, the destination column of R89). -/
def Instr.dest? : Instr → Option Operand
  | .add _ _ o3 => some o3
  | .multiply _ _ o3 => some o3
  | .input o1 _ _ => some o1
  | .output _ _ _ => none
  | .jumpIfTrue _ _ _ => none
  | .jumpIfFalse _ _ _ => none
  | .testLessThan _ _ o3 => some o3
  | .testEqual _ _ o3 => some o3
  | .adjustBase _ _ _ => none
  | .halt _ _ _ => none

/-- The destination, if there is one, is not in Immediate mode (R117, the sixth illegal form of R91). -/
def Instr.destIsCell (i : Instr) : Bool :=
  match i.dest? with
  | some o => decide (o.mode ≠ .immediate)
  | none => true

/-- Every literal is an `Int` of the width (R8, R88). -/
def Instr.literalsFit (w : Width) (i : Instr) : Bool :=
  i.literals.all (fits w)

/-- Well-formed: both checks. An instruction that fails the first one decodes, and executing it raises
AddressingError (R117); one that fails the second cannot stand in a memory of that width. -/
def Instr.wellFormed (w : Width) (i : Instr) : Bool :=
  i.destIsCell && i.literalsFit w

end Sys2Proof
end

