-- ==== Sys2Proof/Decode.lean ====
section
/-! DEFINITION. The instruction decoder of 40_decoder.md (Decode, R110) with its inverse (Encode, R115), the tagging
of the literals with the decoded modes (the pure part of Construct, R116), and both lifted to whole instructions. -/

namespace Sys2Proof

/-- The decoder's one way to refuse an integer (R110, R113). -/
inductive DecodeFailure where
  /-- `v` is not one of the 270 opcode integers of R92. The state machine raises DecodeError(v) (R113): safe. -/
  | malformed (v : Int)
  deriving DecidableEq, Repr

/-- `OpKind`, the fixed table of R111. -/
def opKind : Nat → Option Kind
  | 1 => some .add
  | 2 => some .multiply
  | 3 => some .input
  | 4 => some .output
  | 5 => some .jumpIfTrue
  | 6 => some .jumpIfFalse
  | 7 => some .testLessThan
  | 8 => some .testEqual
  | 9 => some .adjustBase
  | 99 => some .halt
  | _ => none

/-- `OpNum`, the inverse of `OpKind` (R84, R115). -/
def opNum : Kind → Nat
  | .add => 1
  | .multiply => 2
  | .input => 3
  | .output => 4
  | .jumpIfTrue => 5
  | .jumpIfFalse => 6
  | .testLessThan => 7
  | .testEqual => 8
  | .adjustBase => 9
  | .halt => 99

/-- `ModeOf` (R86, R110): the digits 3 to 9 are no mode. -/
def modeOf : Nat → Option Mode
  | 0 => some .address
  | 1 => some .immediate
  | 2 => some .relative
  | _ => none

/-- `DigitOf`, the inverse of `ModeOf` (R115). -/
def digitOf : Mode → Nat
  | .address => 0
  | .immediate => 1
  | .relative => 2

/-- `dig(v, i)` of R9: decimal digit `i` of a non-negative integer, digit 0 the units. -/
def dig (v i : Nat) : Nat := v / 10 ^ i % 10

/-- `Decode` (R110): the operation number is `v mod 100` (R84), the modes are digits 2, 3 and 4 (R81), all three
validated whatever the kind (R112); a negative integer and a sixth digit fail (R91 rows 4 and 5). -/
def decodeOpcode (v : Int) : Except DecodeFailure OpCode :=
  if v < 0 then .error (.malformed v)
  else if v.toNat / 100000 ≠ 0 then .error (.malformed v)
  else
    match opKind (v.toNat % 100), modeOf (dig v.toNat 2), modeOf (dig v.toNat 3), modeOf (dig v.toNat 4) with
    | some k, some m1, some m2, some m3 => .ok ⟨k, m1, m2, m3⟩
    | _, _, _, _ => .error (.malformed v)

/-- `Encode` (R115): `op + 100*m1 + 1000*m2 + 10000*m3`. -/
def encodeOpcode (c : OpCode) : Int :=
  ((opNum c.kind + 100 * digitOf c.m1 + 1000 * digitOf c.m2 + 10000 * digitOf c.m3 : Nat) : Int)

/-- `Arity` (R83, R116). -/
def Kind.arity : Kind → Nat
  | .add => 3
  | .multiply => 3
  | .input => 1
  | .output => 1
  | .jumpIfTrue => 2
  | .jumpIfFalse => 2
  | .testLessThan => 3
  | .testEqual => 3
  | .adjustBase => 1
  | .halt => 0

/-- `Width` (R83, R116): the cells an instruction occupies. -/
def Kind.width (k : Kind) : Nat := 1 + k.arity

/-- The tagging of `Construct` (R116): operand `k` is literal `k` with mode `m_k`; the literals beyond the arity
are not looked at. -/
def build (c : OpCode) (l1 l2 l3 : Int) : Instr :=
  match c.kind with
  | .add => .add ⟨c.m1, l1⟩ ⟨c.m2, l2⟩ ⟨c.m3, l3⟩
  | .multiply => .multiply ⟨c.m1, l1⟩ ⟨c.m2, l2⟩ ⟨c.m3, l3⟩
  | .input => .input ⟨c.m1, l1⟩ c.m2 c.m3
  | .output => .output ⟨c.m1, l1⟩ c.m2 c.m3
  | .jumpIfTrue => .jumpIfTrue ⟨c.m1, l1⟩ ⟨c.m2, l2⟩ c.m3
  | .jumpIfFalse => .jumpIfFalse ⟨c.m1, l1⟩ ⟨c.m2, l2⟩ c.m3
  | .testLessThan => .testLessThan ⟨c.m1, l1⟩ ⟨c.m2, l2⟩ ⟨c.m3, l3⟩
  | .testEqual => .testEqual ⟨c.m1, l1⟩ ⟨c.m2, l2⟩ ⟨c.m3, l3⟩
  | .adjustBase => .adjustBase ⟨c.m1, l1⟩ c.m2 c.m3
  | .halt => .halt c.m1 c.m2 c.m3

/-- The decoder on consecutive cells, the opcode integer first (R80). Total on any list: a cell past its end is 0,
as memory beyond the extent is (R53). -/
def decode (cells : List Int) : Except DecodeFailure Instr :=
  match decodeOpcode (cells.getD 0 0) with
  | .ok c => .ok (build c (cells.getD 1 0) (cells.getD 2 0) (cells.getD 3 0))
  | .error e => .error e

/-- The kind and the three modes of an instruction. -/
def Instr.opCode : Instr → OpCode
  | .add o1 o2 o3 => ⟨.add, o1.mode, o2.mode, o3.mode⟩
  | .multiply o1 o2 o3 => ⟨.multiply, o1.mode, o2.mode, o3.mode⟩
  | .input o1 u2 u3 => ⟨.input, o1.mode, u2, u3⟩
  | .output o1 u2 u3 => ⟨.output, o1.mode, u2, u3⟩
  | .jumpIfTrue o1 o2 u3 => ⟨.jumpIfTrue, o1.mode, o2.mode, u3⟩
  | .jumpIfFalse o1 o2 u3 => ⟨.jumpIfFalse, o1.mode, o2.mode, u3⟩
  | .testLessThan o1 o2 o3 => ⟨.testLessThan, o1.mode, o2.mode, o3.mode⟩
  | .testEqual o1 o2 o3 => ⟨.testEqual, o1.mode, o2.mode, o3.mode⟩
  | .adjustBase o1 u2 u3 => ⟨.adjustBase, o1.mode, u2, u3⟩
  | .halt u1 u2 u3 => ⟨.halt, u1, u2, u3⟩

/-- The cells of an instruction: the opcode integer, then its literals (R80). -/
def encode (i : Instr) : List Int :=
  encodeOpcode i.opCode :: i.literals

/-- The instruction the decoder reads from an opcode-table word. A cell holds one whole integer and there is no bit
numbering (R9, R50), so `w` is the opcode integer itself, however many bits are named, and every operand cell is 0. -/
def decodeTableWord (_nbits w : Nat) : Option Instr :=
  match decode [(w : Int), 0, 0, 0] with
  | .ok i => some i
  | .error _ => none

end Sys2Proof
end

