-- ==== Sys2Proof/Config.lean ====
section
/-! DEFINITION. The parameters of 00_scope.md R6 as plain data, their defaults, and the one free value (GROW). -/

namespace Sys2Proof

/-- FREE VALUE (log 2): how many cells more than `a + 1` an implementation's own growth policy number `n` makes
when a memory of `extent` cells is written at `a`. It has no body, so nothing can be proved of its value and a
statement about policy `n` holds for every GROW with `GROW(extent, a) >= a + 1` (R56). -/
opaque Config.growSlack (n extent a : Nat) : Nat

/-- The parameter GROW (R6, R56), as plain data. DESIGN CHOICE, safe (log 2). -/
inductive GrowPolicy where
  /-- direct sizing, `a + 1`: the default of R6 -/
  | direct
  /-- doubling, `max (2 * extent) (a + 1)`: the other policy the document names (R56) -/
  | doubling
  /-- any other policy: `a + 1 + Config.growSlack n extent a` -/
  | implementation (n : Nat)
  deriving DecidableEq, Repr

/-- The six parameters of R6. They are configuration (R32): no step changes them (log 1). -/
structure Config where
  /-- `W`: the width of every integer; `none` is `inf` -/
  width : Width
  /-- `MEM_MAX`: the number of addressable cells; `none` is `inf` -/
  memMax : Option Nat
  /-- `GROW`: the growth policy -/
  grow : GrowPolicy
  /-- `LAZY_JUMP_TARGET` (R192) -/
  lazyJumpTarget : Bool
  /-- `HALT_ADVANCES_IP` (R156) -/
  haltAdvancesIp : Bool
  /-- `PLUS_SIGN_OK` (R182) -/
  plusSignOk : Bool
  deriving DecidableEq, Repr

/-- The defaults of R6. -/
def Config.defaults : Config where
  width := none
  memMax := none
  grow := .direct
  lazyJumpTarget := false
  haltAdvancesIp := false
  plusSignOk := false

/-- The legal values of R6: a finite `W` is at least 16, a finite `MEM_MAX` at least 1. -/
def Config.legal (cfg : Config) : Bool :=
  (match cfg.width with
    | none => true
    | some n => decide (16 ≤ n)) &&
  (match cfg.memMax with
    | none => true
    | some n => decide (1 ≤ n))

end Sys2Proof
end

