-- ==== Sys2Proof/Machine/State.lean ====
section
/-! DEFINITION. The machine's state as plain data (10_state.md R34, the ten fields of the spec's record, and the
model's own `cfg`, `sinkQ`, `sinkRest`), the reasons of faults and refusals, and the state after reset (R37). -/

namespace Sys2Proof.Machine

/-- One listed cell: its address and the integer it holds. Cells are whole integers, not bytes (R50; log 10). -/
abbrev Cell := Nat × Int

/-- The memory array (R25, R26): the cells that do not hold 0, by rising address, and the number of cells
physically present. An unlisted address reads as 0 (R53). -/
structure Memory where
  cells : List Cell
  extent : Nat
  deriving DecidableEq, Repr

/-- `STATUS` (R27). -/
inductive Status where
  | idle | running | halted | faulted
  deriving DecidableEq, Repr

/-- `CAUSE` (R28, R220). -/
inductive Cause where
  | none | decodeError | addressingError | negativeAddressError
  | inputParseError | ioError | overflow | outOfMemory
  deriving DecidableEq, Repr

/-- An input item (R30). -/
inductive InItem where
  /-- one line that parsed as this integer -/
  | value (v : Int)
  /-- one line that did not parse -/
  | unparseable
  /-- a failure of the transport -/
  | transportFailed
  deriving DecidableEq, Repr

/-- The sink's answer to an offer (R31). -/
inductive SinkAnswer where
  | accepted | sinkFailed
  deriving DecidableEq, Repr

/-- The side of an IOError, its CAUSE_INFO (R225, R231). -/
inductive IoSide where
  | inputSide | outputSide
  deriving DecidableEq, Repr

/-- The fatal errors of R220, each with its detail (R231). Inside a step every one of them becomes a next state
that is FAULTED (R229), so no step of the machine answers `.fault`; a host's access through a memory port answers
`.fault` with the reason (R54), and the state stays. All are safe: the machine stops where the spec says it does. -/
inductive Fault where
  /-- raised by the decode phase on the integer `v` (R221); safe -/
  | decodeError (v : Int)
  /-- raised by ADD, MUL, LT, EQ, IN with an Immediate destination; `v` is the opcode integer (R222); safe -/
  | addressingError (v : Int)
  /-- raised by the opcode fetch and by every non-immediate operand whose address `a` is negative (R223); safe -/
  | negativeAddress (a : Int)
  /-- raised by IN on an Unparseable item (R224); safe -/
  | inputParseError
  /-- raised by IN on TransportFailed and by OUT on SinkFailed (R225); safe -/
  | ioError (side : IoSide)
  /-- raised where an exactly computed integer is no `Int` of the finite width (R226); safe -/
  | overflow
  /-- raised by a write at `a >= MEM_MAX` (R227); safe -/
  | outOfMemory (a : Int)
  deriving DecidableEq, Repr

/-- Why a port refuses a host action. No instruction and no step is ever refused. All are safe: the spec gives the
action no meaning (R268) or has the loader refuse it (R262). -/
inductive Refusal where
  /-- an instruction whose meaning is not written yet; raised by no arm of exec; safe -/
  | notModelled (mnemonic : String)
  /-- `start` while STATUS is not IDLE (R150, R268); safe -/
  | startNotIdle
  /-- `rd` or `wr` by the host while STATUS is not IDLE (R268); safe -/
  | pokeNotIdle
  /-- an image longer than MEM_MAX (R262); safe -/
  | imageTooLong
  /-- an integer outside `Int` in an image (R262) or given to `wr`; safe -/
  | integerOutOfRange
  deriving DecidableEq, Repr

/-- The machine state (R34). -/
structure State where
  /-- the parameters of R6; configuration, written by no step (log 1) -/
  cfg : Config
  /-- MEM and `extent` (R25, R26) -/
  mem : Memory
  /-- the instruction pointer (R21) -/
  ip : Int
  /-- the base pointer (R23) -/
  bp : Int
  /-- STATUS (R27) -/
  status : Status
  /-- CAUSE (R28) -/
  cause : Cause
  /-- CAUSE_INFO (R28, R231) -/
  causeInfo : Int
  /-- RESULT, `none` while it is not valid (R29) -/
  result : Option Int
  /-- IN, the input queue, its head first (R30) -/
  inQ : List InItem
  /-- OUT, the accepted output, oldest first (R31) -/
  out : List Int
  /-- the sink's answers not used yet, oldest first (R31, R186; log 5) -/
  sinkQ : List SinkAnswer
  /-- the sink's answer when `sinkQ` is empty; `none`: it does not answer, Output holds (R186; log 5) -/
  sinkRest : Option SinkAnswer
  deriving DecidableEq, Repr

/-- What an instruction, a step or a host action answers. -/
abbrev Answer := Host.Outcome State Fault Refusal

/-- The cells of an image laid out from address `a` on; a cell that holds 0 is not listed. -/
def imageCells : Nat → List Int → List Cell
  | _, [] => []
  | a, v :: vs => if v = 0 then imageCells (a + 1) vs else (a, v) :: imageCells (a + 1) vs

/-- The memory that holds an image at addresses `0 .. n-1`, with no growth (R26, R260). -/
def Memory.ofImage (image : List Int) : Memory where
  cells := imageCells 0 image
  extent := image.length

/-- The machine right after reset with the empty image and the default parameters (R37, R6). The input queue and
the sink are the host's (R37, R186): DESIGN CHOICE, an empty queue and a sink that accepts every offer (log 5, 6). -/
def State.reset : State where
  cfg := Config.defaults
  mem := Memory.ofImage []
  ip := 0
  bp := 0
  status := .idle
  cause := .none
  causeInfo := 0
  result := none
  inQ := []
  out := []
  sinkQ := []
  sinkRest := some .accepted

end Sys2Proof.Machine
end

