-- ==== Sys2Proof/Machine/Ops.lean ====
section
/-! DEFINITION. The named operations over memory and registers: `MemRead` and `MemWrite` (20_memory.md R53, R54), the
range check of a finite width (R8, R226), the register writes, and raising a fault (R13, R229), the machine's one way
of taking an exception. There is no return from one (R235): only a reset, `State.load` in Ports.lean, leaves FAULTED. -/

namespace Sys2Proof.Machine

/-! ### Memory -/

/-- The integer listed at an address, 0 if none is. -/
def lookup : List Cell → Nat → Int
  | [], _ => 0
  | (b, w) :: t, a => if b = a then w else lookup t a

/-- The list with the integer at one address replaced; 0 is not listed. -/
def putCell : List Cell → Nat → Int → List Cell
  | [], a, v => if v = 0 then [] else [(a, v)]
  | (b, w) :: t, a, v =>
    if b < a then (b, w) :: putCell t a v
    else if b = a then (if v = 0 then t else (a, v) :: t)
    else (if v = 0 then (b, w) :: t else (a, v) :: (b, w) :: t)

/-- MEM as the total function of R25: 0 at and beyond the extent. -/
def readCell (m : Memory) (a : Nat) : Int :=
  if a < m.extent then lookup m.cells a else 0

/-- `MemRead(a, 1)` (R53). -/
def memRead (m : Memory) (a : Int) : Except Fault Int :=
  if a < 0 then .error (.negativeAddress a) else .ok (readCell m a.toNat)

/-- GROW (R6, R56): the new extent of a memory of `extent` cells written at `a`. A policy that asks for more than
MEM_MAX cells gets MEM_MAX ("new <= MEM_MAX", R54). -/
def growExtent (cfg : Config) (extent a : Nat) : Nat :=
  let wanted :=
    match cfg.grow with
    | .direct => a + 1
    | .doubling => max (2 * extent) (a + 1)
    | .implementation n => a + 1 + Config.growSlack n extent a
  match cfg.memMax with
  | none => wanted
  | some n => min wanted n

/-- The store of R54 after its checks: growth, filling the new cells with 0, then `mem[a] := v`. -/
def storeCell (cfg : Config) (m : Memory) (a : Nat) (v : Int) : Memory :=
  if a < m.extent then { cells := putCell m.cells a v, extent := m.extent }
  else { cells := putCell (m.cells.filter (fun c => decide (c.1 < m.extent))) a v,
         extent := growExtent cfg m.extent a }

/-- Whether a write at `a` is beyond the capacity: `a >= MEM_MAX` (R54). -/
def overCapacity (cfg : Config) (a : Nat) : Bool :=
  match cfg.memMax with
  | none => false
  | some n => decide (n ≤ a)

/-- The capacity check of a destination (R54, R180, R228 item 6). -/
def checkCapacity (cfg : Config) (a : Int) : Except Fault Int :=
  if overCapacity cfg a.toNat then .error (.outOfMemory a) else .ok a

/-- `MemWrite(a, 1, v)` (R54). -/
def memWrite (cfg : Config) (m : Memory) (a v : Int) : Except Fault Memory :=
  if a < 0 then .error (.negativeAddress a)
  else if overCapacity cfg a.toNat then .error (.outOfMemory a)
  else .ok (storeCell cfg m a.toNat v)

/-- Addresses at least `lo`, strictly rising, below the extent, and no listed 0. -/
def cellsWf (extent : Nat) : Nat → List Cell → Bool
  | _, [] => true
  | lo, (a, v) :: t => decide (lo ≤ a) && decide (a < extent) && decide (v ≠ 0) && cellsWf extent (a + 1) t

/-- The canonical form of a memory. -/
def Memory.wf (m : Memory) : Bool := cellsWf m.extent 0 m.cells

/-- The snapshot of the debug port: the cells `0 .. extent-1` in address order (R248). -/
def Memory.snapshot (m : Memory) : List Int := (List.range m.extent).map (readCell m)

/-! ### Integers -/

/-- An exactly computed integer as an `Int` of the width, or Overflow (R8, R226). -/
def narrow (cfg : Config) (v : Int) : Except Fault Int :=
  if fits cfg.width v then .ok v else .error .overflow

/-! ### Registers -/

/-- Writes MEM and the extent. -/
def State.setMem (s : State) (m : Memory) : State := { s with mem := m }
/-- `ip <- v`. -/
def State.setIp (s : State) (v : Int) : State := { s with ip := v }
/-- `bp <- v`. -/
def State.setBp (s : State) (v : Int) : State := { s with bp := v }
/-- Writes the input queue. -/
def State.setInQ (s : State) (q : List InItem) : State := { s with inQ := q }
/-- Writes the sink's pending answers. -/
def State.setSinkQ (s : State) (q : List SinkAnswer) : State := { s with sinkQ := q }
/-- `out := out ++ [x]` (R185). -/
def State.emit (s : State) (x : Int) : State := { s with out := s.out ++ [x] }
/-- `RESULT <- r; STATUS <- HALTED` (R211). -/
def State.finish (s : State) (r : Int) : State := { s with result := some r, status := .halted }

/-- `ip + Width(kind)`, the fixed advance of R156, or Overflow. -/
def advance (s : State) (cells : Nat) : Except Fault Int := narrow s.cfg (s.ip + cells)

/-! ### Taking an exception -/

/-- The cause a fault records (R220). -/
def Fault.cause : Fault → Cause
  | .decodeError _ => .decodeError
  | .addressingError _ => .addressingError
  | .negativeAddress _ => .negativeAddressError
  | .inputParseError => .inputParseError
  | .ioError _ => .ioError
  | .overflow => .overflow
  | .outOfMemory _ => .outOfMemory

/-- The CAUSE_INFO a fault records (R231). -/
def Fault.info : Fault → Int
  | .decodeError v => v
  | .addressingError v => v
  | .negativeAddress a => a
  | .inputParseError => 0
  | .ioError .inputSide => 0
  | .ioError .outputSide => 1
  | .overflow => 0
  | .outOfMemory a => a

/-- `raise` (R13, R229): STATUS, CAUSE and CAUSE_INFO are written and nothing else; control goes nowhere. -/
def raise (f : Fault) (s : State) : State :=
  { s with status := .faulted, cause := f.cause, causeInfo := f.info }

/-- The end of an instruction: the computed state, or the fault taken in the state it began in (R155). -/
def complete (s : State) : Except Fault State → Answer
  | .ok t => .next t
  | .error f => .next (raise f s)

/-- A step of a machine with nothing to do: not started (R27), ended (R235), or held (R14, R159). Nothing changes.
DESIGN CHOICE, safe (log 3, 4): such a step is answered as a next state that is the same state. -/
def atRest (s : State) : Answer := .next s

end Sys2Proof.Machine
end

