-- ==== Sys2Proof/Machine/Operands.lean ====
section
/-! DEFINITION. The operand resolver of 41_operand_resolver.md: a mode-tagged operand to a value (R131) or to the
address of a destination (R132). -/

namespace Sys2Proof.Machine

/-- `EA((Relative, lit), bp) = bp + lit` (R130), Overflow if the sum is no `Int`. (`EA((Address, lit), bp)` is `lit`.) -/
def relativeAddress (s : State) (lit : Int) : Except Fault Int := narrow s.cfg (s.bp + lit)

/-- `ResolveValue` (R131). -/
def resolveValue (s : State) (o : Operand) : Except Fault Int :=
  match o.mode with
  | .immediate => .ok o.lit
  | .address => memRead s.mem o.lit
  | .relative => do
    let a ← relativeAddress s o.lit
    memRead s.mem a

/-- The negative-address test of R132. -/
def checkNonneg (a : Int) : Except Fault Int :=
  if a < 0 then .error (.negativeAddress a) else .ok a

/-- `ResolveAddress` (R132); `opcode` is the opcode integer, the detail of an AddressingError (R231). -/
def resolveAddress (opcode : Int) (s : State) (o : Operand) : Except Fault Int :=
  match o.mode with
  | .immediate => .error (.addressingError opcode)
  | .address => checkNonneg o.lit
  | .relative => do
    let a ← relativeAddress s o.lit
    checkNonneg a

/-- A destination ready to be written: its address, and the capacity check that R228 puts before the result is
computed (DEDUCED, log 8). -/
def resolveDest (opcode : Int) (s : State) (o : Operand) : Except Fault Int := do
  let a ← resolveAddress opcode s o
  checkCapacity s.cfg a

/-- The destination-mode check of `Construct` (R117), made before any operand is resolved. -/
def checkDestMode (opcode : Int) (o : Operand) : Except Fault Unit :=
  match o.mode with
  | .immediate => .error (.addressingError opcode)
  | .address => .ok ()
  | .relative => .ok ()

end Sys2Proof.Machine
end

