-- ==== Sys2Proof/Machine/Arithmetic.lean ====
section
/-! DEFINITION. Add and Multiply (43_arithmetic.md), over the operation that every format F3 kind shares. -/

namespace Sys2Proof.Machine

/-- The effect that Add, Multiply, TestLessThan and TestEqual share (format F3; R170, R171, R200, R201), its checks in
the order of R228: destination mode, `o1`, `o2`, destination, result, next `ip`; then the one write, then `ip + 4`. -/
def binaryToCell (op : Int → Int → Except Fault Int) (k : Kind) (o1 o2 o3 : Operand) (s : State) :
    Except Fault State := do
  let opcode := encodeOpcode ⟨k, o1.mode, o2.mode, o3.mode⟩
  checkDestMode opcode o3
  let a ← resolveValue s o1
  let b ← resolveValue s o2
  let d ← resolveDest opcode s o3
  let v ← op a b
  let next ← advance s 4
  let m ← memWrite s.cfg s.mem d v
  pure ((s.setMem m).setIp next)

/-- ADD (R170): the exact sum, Overflow if it is no `Int` (R172). -/
def execAdd (o1 o2 o3 : Operand) (s : State) : Answer :=
  complete s (binaryToCell (fun a b => narrow s.cfg (a + b)) .add o1 o2 o3 s)

/-- MUL (R171): the exact product, Overflow if it is no `Int` (R172). -/
def execMultiply (o1 o2 o3 : Operand) (s : State) : Answer :=
  complete s (binaryToCell (fun a b => narrow s.cfg (a * b)) .multiply o1 o2 o3 s)

end Sys2Proof.Machine
end

