-- ==== Sys2Proof/Machine/BaseHalt.lean ====
section
/-! DEFINITION. AdjustBase and Halt (47_base_halt.md). -/

namespace Sys2Proof.Machine

/-- The effect of AdjustBase (R210): the operand is read with the old `bp`; then `bp + x`, then `ip + 2`. -/
def adjustBase (o1 : Operand) (s : State) : Except Fault State := do
  let x ← resolveValue s o1
  let base ← narrow s.cfg (s.bp + x)
  let next ← advance s 2
  pure ((s.setBp base).setIp next)

/-- ARB (R210). -/
def execAdjustBase (o1 : Operand) (s : State) : Answer :=
  complete s (adjustBase o1 s)

/-- `ip` after Halt: unchanged, or one more with HALT_ADVANCES_IP (R156, R211). -/
def ipAfterHalt (s : State) : Except Fault Int :=
  if s.cfg.haltAdvancesIp then advance s 1 else .ok s.ip

/-- The effect of Halt (R211): the result is cell 0 as it is in this step (R158). -/
def halt (s : State) : Except Fault State := do
  let next ← ipAfterHalt s
  let r ← memRead s.mem 0
  pure ((s.finish r).setIp next)

/-- HLT (R211). -/
def execHalt (s : State) : Answer :=
  complete s (halt s)

end Sys2Proof.Machine
end

