-- ==== Sys2Proof/Machine/Flags.lean ====
section
/-! DEFINITION. The machine has no flags (10_state.md R24). What other machines keep in flags is here computed on the
spot: the 0-or-1 result of a test (R200, R201) and the condition of a jump (R190, R191). -/

namespace Sys2Proof.Machine

/-- The result of TestLessThan: 1 if `a < b` in the signed order, else 0 (R200). -/
def testLess (a b : Int) : Int := if a < b then 1 else 0

/-- The result of TestEqual: 1 if `a = b`, else 0 (R201). -/
def testEq (a b : Int) : Int := if a = b then 1 else 0

/-- The condition of JumpIfTrue: non-zero, negative included (R190). -/
def condTrue (c : Int) : Bool := decide (c ≠ 0)

/-- The condition of JumpIfFalse: zero (R191). -/
def condFalse (c : Int) : Bool := decide (c = 0)

end Sys2Proof.Machine
end

