-- ==== Sys2Proof/Machine/Compare.lean ====
section
/-! DEFINITION. TestLessThan and TestEqual (46_compare.md). -/

namespace Sys2Proof.Machine

/-- LT (R200): the result is exactly 1 or 0, so it never overflows. -/
def execTestLessThan (o1 o2 o3 : Operand) (s : State) : Answer :=
  complete s (binaryToCell (fun a b => .ok (testLess a b)) .testLessThan o1 o2 o3 s)

/-- EQ (R201). -/
def execTestEqual (o1 o2 o3 : Operand) (s : State) : Answer :=
  complete s (binaryToCell (fun a b => .ok (testEq a b)) .testEqual o1 o2 o3 s)

end Sys2Proof.Machine
end

