-- ==== Sys2Proof/Machine/InputOutput.lean ====
section
/-! DEFINITION. Input and Output (44_io.md), each in two parts: what is checked before the channel is touched, and
what the channel's item or answer then does. -/

namespace Sys2Proof.Machine

/-- What IN settles before it takes an item (R180, R228 items 4 to 7): the destination address and the next `ip`. -/
def inputTarget (opcode : Int) (o1 : Operand) (s : State) : Except Fault (Int × Int) := do
  checkDestMode opcode o1
  let d ← resolveDest opcode s o1
  let next ← advance s 2
  pure (d, next)

/-- What the item at the head of the queue does to IN (R180, R183); `s` is the state with the item taken. -/
def takeItem (d next : Int) (item : InItem) (s : State) : Except Fault State :=
  match item with
  | .value x => do
    let m ← memWrite s.cfg s.mem d x
    pure ((s.setMem m).setIp next)
  | .unparseable => .error .inputParseError
  | .transportFailed => .error (.ioError .inputSide)

/-- IN (R180): with an empty queue the machine holds (R181). -/
def execInput (o1 : Operand) (u2 u3 : Mode) (s : State) : Answer :=
  match inputTarget (encodeOpcode ⟨.input, o1.mode, u2, u3⟩) o1 s with
  | .error f => .next (raise f s)
  | .ok (d, next) =>
    match s.inQ with
    | [] => atRest s
    | item :: rest => complete (s.setInQ rest) (takeItem d next item (s.setInQ rest))

/-- What OUT settles before it offers (R185, R228 items 5 and 7): the value and the next `ip`. -/
def outputOffer (o1 : Operand) (s : State) : Except Fault (Int × Int) := do
  let x ← resolveValue s o1
  let next ← advance s 2
  pure (x, next)

/-- The sink's next answer and the answers left after it, or none if it has not answered (R186; log 5). -/
def nextAnswer (s : State) : Option (SinkAnswer × List SinkAnswer) :=
  match s.sinkQ with
  | a :: rest => some (a, rest)
  | [] =>
    match s.sinkRest with
    | some a => some (a, [])
    | none => none

/-- OUT (R185): without an answer the machine holds (R186). -/
def execOutput (o1 : Operand) (s : State) : Answer :=
  match outputOffer o1 s with
  | .error f => .next (raise f s)
  | .ok (x, next) =>
    match nextAnswer s with
    | none => atRest s
    | some (.accepted, rest) => .next (((s.setSinkQ rest).emit x).setIp next)
    | some (.sinkFailed, rest) => .next (raise (.ioError .outputSide) (s.setSinkQ rest))

end Sys2Proof.Machine
end

