-- ==== Sys2Proof/Machine/Jumps.lean ====
section
/-! DEFINITION. JumpIfTrue and JumpIfFalse (45_jumps.md). -/

namespace Sys2Proof.Machine

/-- The fall-through: `ip <- ip + 3` (R156, R195). -/
def fallThrough (s : State) : Except Fault State := do
  let next ← advance s 3
  pure (s.setIp next)

/-- A conditional jump (R190, R191). Both operands are resolved first, unless LAZY_JUMP_TARGET has the target
resolved in the taken branch only (R192). The target is stored unchecked (R194). -/
def jump (cond : Int → Bool) (o1 o2 : Operand) (s : State) : Except Fault State := do
  let c ← resolveValue s o1
  if s.cfg.lazyJumpTarget && !cond c then fallThrough s
  else do
    let t ← resolveValue s o2
    if cond c then pure (s.setIp t) else fallThrough s

/-- JT (R190). -/
def execJumpIfTrue (o1 o2 : Operand) (s : State) : Answer :=
  complete s (jump condTrue o1 o2 s)

/-- JF (R191). -/
def execJumpIfFalse (o1 o2 : Operand) (s : State) : Answer :=
  complete s (jump condFalse o1 o2 s)

end Sys2Proof.Machine
end

