-- ==== Sys2Proof/Machine/Dispatch.lean ====
section
/-! DEFINITION. The exhaustive match over the ten variants (42_execution_loop.md R151). -/

namespace Sys2Proof.Machine

/-- The effect of one typed instruction (R151). -/
def exec (i : Instr) (s : State) : Host.Outcome State Fault Refusal :=
  match i with
  | .add o1 o2 o3 => Sys2Proof.Machine.execAdd o1 o2 o3 s
  | .multiply o1 o2 o3 => Sys2Proof.Machine.execMultiply o1 o2 o3 s
  | .input o1 u2 u3 => Sys2Proof.Machine.execInput o1 u2 u3 s
  | .output o1 _ _ => Sys2Proof.Machine.execOutput o1 s
  | .jumpIfTrue o1 o2 _ => Sys2Proof.Machine.execJumpIfTrue o1 o2 s
  | .jumpIfFalse o1 o2 _ => Sys2Proof.Machine.execJumpIfFalse o1 o2 s
  | .testLessThan o1 o2 o3 => Sys2Proof.Machine.execTestLessThan o1 o2 o3 s
  | .testEqual o1 o2 o3 => Sys2Proof.Machine.execTestEqual o1 o2 o3 s
  | .adjustBase o1 _ _ => Sys2Proof.Machine.execAdjustBase o1 s
  | .halt _ _ _ => Sys2Proof.Machine.execHalt s

end Sys2Proof.Machine
end

