-- ==== Sys2Proof/Machine/Fetch.lean ====
section
/-! DEFINITION. The phases FETCH, DECODE and OPFETCH of a step (42_execution_loop.md R151): from memory and `ip` to the
typed instruction. -/

namespace Sys2Proof.Machine

/-- `Decode` with its failure raised as DecodeError (R113, R154). -/
def decodePhase (v : Int) : Except Fault OpCode :=
  match decodeOpcode v with
  | .ok c => .ok c
  | .error (.malformed u) => .error (.decodeError u)

/-- `MemRead(ip + k, 1)` (R116), Overflow if `ip + k` is no `Int` (R226); a literal beyond the arity is not fetched. -/
def fetchLiteral (s : State) (arity k : Nat) : Except Fault Int :=
  if k ≤ arity then do
    let a ← narrow s.cfg (s.ip + k)
    memRead s.mem a
  else .ok 0

/-- The instruction at `ip` (R151, R116): the opcode integer, its decoding, then the literals in order. -/
def fetchInstr (s : State) : Except Fault Instr := do
  let v ← memRead s.mem s.ip
  let c ← decodePhase v
  let l1 ← fetchLiteral s c.kind.arity 1
  let l2 ← fetchLiteral s c.kind.arity 2
  let l3 ← fetchLiteral s c.kind.arity 3
  pure (build c l1 l2 l3)

/-- The state with a one-word instruction placed at `ip` and started: the opcode integer `w` in the cell `ip`, the three
operand cells after it 0, STATUS RUNNING. If `ip` is negative it is set to 0, the entry point (R61), since no cell can
be fetched there. -/
def State.place (s : State) (w : Nat) : State :=
  let a := s.ip.toNat
  let m1 := storeCell s.cfg s.mem a (w : Int)
  let m2 := storeCell s.cfg m1 (a + 1) 0
  let m3 := storeCell s.cfg m2 (a + 2) 0
  let m4 := storeCell s.cfg m3 (a + 3) 0
  { s with mem := m4, ip := (a : Int), status := .running }

end Sys2Proof.Machine
end

