-- ==== Sys2Proof/Machine/Step.lean ====
section
/-! DEFINITION. One step (42_execution_loop.md R151, R157): while RUNNING it executes the instruction at `ip` or takes
the fault of fetching it; in every other status nothing happens (R27, R235). -/

namespace Sys2Proof.Machine

/-- One step of the machine. -/
def step (s : State) : Host.Outcome State Fault Refusal :=
  match s.status with
  | .running =>
    match fetchInstr s with
    | .ok i => exec i s
    | .error f => .next (raise f s)
  | .idle => atRest s
  | .halted => atRest s
  | .faulted => atRest s

/-- The state with the opcode-table word `w` as the next instruction to run, started (log 11). -/
def State.withFetchWord (s : State) (_nbits w : Nat) : State := s.place w

end Sys2Proof.Machine
end

