-- ==== Sys2Proof/Machine/Transport.lean ====
section
/-! DEFINITION. What the core expects of the transport on the input side (44_io.md R182, R184): one line of text to one
input item. The transport itself is out of scope (00_scope.md R4). -/

namespace Sys2Proof.Machine

/-- Removes surrounding whitespace (R182). Which characters are whitespace is not stated (N9): DESIGN CHOICE, unsafe,
`Char.isWhitespace` (log 16). -/
def trim (line : List Char) : List Char :=
  ((line.dropWhile Char.isWhitespace).reverse.dropWhile Char.isWhitespace).reverse

/-- The value of decimal digits, most significant first, after the value `acc`. -/
def digitsFrom : Nat → List Char → Option Nat
  | acc, [] => some acc
  | acc, c :: cs => if c.isDigit then digitsFrom (10 * acc + (c.toNat - '0'.toNat)) cs else none

/-- One or more decimal digits (R182). -/
def parseDigits : List Char → Option Nat
  | [] => none
  | c :: cs => digitsFrom 0 (c :: cs)

/-- An optional `-`, or with PLUS_SIGN_OK a `+`, followed by one or more decimal digits (R182). -/
def parseInteger (plusSignOk : Bool) : List Char → Option Int
  | '-' :: cs => (parseDigits cs).map (fun n : Nat => -(n : Int))
  | '+' :: cs => if plusSignOk then (parseDigits cs).map (fun n : Nat => (n : Int)) else none
  | cs => (parseDigits cs).map (fun n : Nat => (n : Int))

/-- An item the machine can hold: a number outside `Int` is Unparseable (R182 row 3). -/
def itemOfValue (cfg : Config) (v : Int) : InItem :=
  if fits cfg.width v then .value v else .unparseable

/-- The table of R182. `none` is "no line can be had because the transport failed or is closed" (R184). -/
def lineItem (cfg : Config) : Option (List Char) → InItem
  | none => .transportFailed
  | some line =>
    match parseInteger cfg.plusSignOk (trim line) with
    | some v => itemOfValue cfg v
    | none => .unparseable

end Sys2Proof.Machine
end

