-- ==== Sys2Proof/Machine/Ports.lean ====
section
/-! DEFINITION. The ports of the Machine block (10_state.md R35) and what the host may do at them
(70_reset_and_hazards.md R268). A host action happens between two steps (log 18). -/

namespace Sys2Proof.Machine

/-! ### Ports that change the state -/

/-- The loader's length check (R262). -/
def imageFitsMemory (cfg : Config) (image : List Int) : Bool :=
  match cfg.memMax with
  | none => true
  | some n => decide (image.length ≤ n)

/-- Reset with an image: the port `load` (R260, R37), in any status. The input queue and the sink are the host's and
are not touched. An image the loader must refuse is refused (R262). -/
def State.load (s : State) (image : List Int) : Answer :=
  if !imageFitsMemory s.cfg image then .refused .imageTooLong
  else if !image.all (fits s.cfg.width) then .refused .integerOutOfRange
  else .next
    { cfg := s.cfg, mem := Memory.ofImage image, ip := 0, bp := 0, status := .idle, cause := .none, causeInfo := 0,
      result := none, inQ := s.inQ, out := [], sinkQ := s.sinkQ, sinkRest := s.sinkRest }

/-- The port `start` (R150): only from IDLE. -/
def State.start (s : State) : Answer :=
  match s.status with
  | .idle => .next { s with status := .running }
  | .running => .refused .startNotIdle
  | .halted => .refused .startNotIdle
  | .faulted => .refused .startNotIdle

/-- The port `wr` (R54) in the host's hands: only while IDLE (R268). A bad address is answered as a fault and changes
nothing: DESIGN CHOICE, safe (log 14). -/
def State.poke (s : State) (a v : Int) : Answer :=
  match s.status with
  | .idle =>
    if fits s.cfg.width a && fits s.cfg.width v then
      match memWrite s.cfg s.mem a v with
      | .ok m => .next (s.setMem m)
      | .error f => .fault f
    else .refused .integerOutOfRange
  | .running => .refused .pokeNotIdle
  | .halted => .refused .pokeNotIdle
  | .faulted => .refused .pokeNotIdle

/-- An item as it comes into the queue: a number outside `Int` comes as Unparseable (R182; log 15). -/
def queuedItem (cfg : Config) (item : InItem) : InItem :=
  match item with
  | .value v => itemOfValue cfg v
  | .unparseable => .unparseable
  | .transportFailed => .transportFailed

/-- The port `in` (R30, R268): the host appends an item at the tail, at any time. -/
def State.supply (s : State) (item : InItem) : State := s.setInQ (s.inQ ++ [queuedItem s.cfg item])

/-- What the host can do to the machine (R268). -/
inductive HostAction where
  /-- construct with an image -/
  | load (image : List Int)
  /-- start -/
  | start
  /-- poke: write a cell -/
  | poke (a v : Int)
  /-- supply an input item -/
  | supply (item : InItem)
  /-- supply a line of text, or nothing because the transport failed, to be parsed into an item -/
  | supplyLine (line : Option (List Char))
  /-- answer one output offer, this one or a later one (R264) -/
  | answer (a : SinkAnswer)
  /-- fix what the sink answers once the answers given one by one are used up -/
  | sinkRest (a : Option SinkAnswer)
  deriving DecidableEq, Repr

/-- The effect of a host action (R268). -/
def act (h : HostAction) (s : State) : Answer :=
  match h with
  | .load image => s.load image
  | .start => s.start
  | .poke a v => s.poke a v
  | .supply item => .next (s.supply item)
  | .supplyLine line => .next (s.supply (lineItem s.cfg line))
  | .answer a => .next (s.setSinkQ (s.sinkQ ++ [a]))
  | .sinkRest a => .next { s with sinkRest := a }

/-- The items a host action appends to the input queue. -/
def HostAction.items (cfg : Config) (h : HostAction) : List InItem :=
  match h with
  | .supply item => [queuedItem cfg item]
  | .supplyLine line => [queuedItem cfg (lineItem cfg line)]
  | .load _ => []
  | .start => []
  | .poke _ _ => []
  | .answer _ => []
  | .sinkRest _ => []

/-! ### Ports that only show -/

/-- The port `rd` in the host's hands (R53): only while IDLE (R268). -/
def State.peek (s : State) (a : Int) : Except (Fault ⊕ Refusal) Int :=
  match s.status with
  | .idle =>
    match memRead s.mem a with
    | .ok v => .ok v
    | .error f => .error (.inl f)
  | .running => .error (.inr .pokeNotIdle)
  | .halted => .error (.inr .pokeNotIdle)
  | .faulted => .error (.inr .pokeNotIdle)

/-- The code of STATUS (R27). -/
def Status.code : Status → Nat
  | .idle => 0
  | .running => 1
  | .halted => 2
  | .faulted => 3

/-- The code of CAUSE (R220). -/
def Cause.code : Cause → Nat
  | .none => 0
  | .decodeError => 1
  | .addressingError => 2
  | .negativeAddressError => 3
  | .inputParseError => 4
  | .ioError => 5
  | .overflow => 6
  | .outOfMemory => 7

/-- The port `status`: STATUS, CAUSE and CAUSE_INFO (R35). -/
def State.statusPort (s : State) : Nat × Nat × Int := (s.status.code, s.cause.code, s.causeInfo)

/-- The port `result`: RESULT while HALTED, else no value (R29). -/
def State.resultPort (s : State) : Option Int :=
  match s.status with
  | .halted => s.result
  | .idle => none
  | .running => none
  | .faulted => none

/-- The port `dbg`: `ip`, `bp` and the cells `0 .. extent-1` in order, in any status (R248). -/
def State.inspect (s : State) : Int × Int × List Int := (s.ip, s.bp, s.mem.snapshot)

/-- The port `out`: the value an Output is offering to the sink (R185, R186), none if no Output is being executed. -/
def State.offered (s : State) : Option Int :=
  match s.status with
  | .running =>
    match fetchInstr s with
    | .ok (.output o1 _ _) =>
      match outputOffer o1 s with
      | .ok (x, _) => some x
      | .error _ => none
    | _ => none
  | _ => none

/-- Held at an Input for want of an item (R159, R181). -/
def State.heldForInput (s : State) : Bool :=
  match s.status with
  | .running =>
    match fetchInstr s with
    | .ok (.input o1 u2 u3) =>
      match inputTarget (encodeOpcode ⟨.input, o1.mode, u2, u3⟩) o1 s with
      | .ok _ => s.inQ.isEmpty
      | .error _ => false
    | _ => false
  | _ => false

/-- Held at an Output for want of the sink's answer (R159, R186). -/
def State.heldForOutput (s : State) : Bool :=
  s.offered.isSome && (nextAnswer s).isNone

end Sys2Proof.Machine
end

