-- ==== Sys2Proof/Safety.lean ====
section
/-! DEFINITION. What counts as a safe state and a safe run, in the terms the statements use: the invariant of the
machine, the end of a run (42_execution_loop.md R158), the launch premises of 70_reset_and_hazards.md R265, and the
relation under which the growth policy cannot be told (20_memory.md R56), and what the four format F3 rules share. -/

namespace Sys2Proof.Machine

/-- An item of the input queue holds an `Int` of the width. -/
def itemFits (w : Width) : InItem → Bool
  | .value v => fits w v
  | .unparseable => true
  | .transportFailed => true

/-- Every cell listed holds an `Int` of the width. -/
def cellsFit (w : Width) (cells : List Cell) : Bool := cells.all (fun c => fits w c.2)

/-- Every integer the machine holds is an `Int` of the width (R8). -/
def State.integersFit (s : State) : Bool :=
  cellsFit s.cfg.width s.mem.cells &&
  fits s.cfg.width s.ip && fits s.cfg.width s.bp && fits s.cfg.width s.causeInfo &&
  s.result.all (fits s.cfg.width) && s.out.all (fits s.cfg.width) && s.inQ.all (itemFits s.cfg.width)

/-- `extent <= MEM_MAX` (R71). -/
def State.extentFits (s : State) : Bool :=
  match s.cfg.memMax with
  | none => true
  | some n => decide (s.mem.extent ≤ n)

/-- The three registers that show the end of a run agree with STATUS: CAUSE and CAUSE_INFO are `None` and 0 unless
FAULTED (R28), a cause stands while FAULTED (R229), RESULT is valid exactly while HALTED (R29). -/
def State.statusAgrees (s : State) : Bool :=
  match s.status with
  | .idle => decide (s.cause = .none) && decide (s.causeInfo = 0) && decide (s.result = none)
  | .running => decide (s.cause = .none) && decide (s.causeInfo = 0) && decide (s.result = none)
  | .halted => decide (s.cause = .none) && decide (s.causeInfo = 0) && s.result.isSome
  | .faulted => decide (s.cause ≠ .none) && decide (s.result = none)

/-- The invariant of the machine. -/
def State.inv (s : State) : Bool :=
  s.cfg.legal && s.mem.wf && s.integersFit && s.extentFits && s.statusAgrees

/-- The run has ended (R158). -/
def State.ended (s : State) : Bool :=
  match s.status with
  | .idle => false
  | .running => false
  | .halted => true
  | .faulted => true

/-- The run succeeded: it ended HALTED (R158). A safe run is one that never reaches FAULTED. -/
def State.succeeded (s : State) : Bool := decide (s.status = .halted)

/-- `CleanLaunch(s, P)` (R265): `s` is the state of a reset with the image `P`. -/
def CleanLaunch (s : State) (image : List Int) : Prop := ∃ s0 : State, s0.load image = .next s

/-- What leads from one state of a run to the next: a step of the machine or an action of the host between two steps
(log 18). -/
inductive Event where
  | step
  | host (h : HostAction)
  deriving DecidableEq, Repr

/-- The answer to an event. -/
def Event.answer (e : Event) (s : State) : Answer :=
  match e with
  | .step => Sys2Proof.Machine.step s
  | .host h => act h s

/-- The items an event appends to the input queue. -/
def Event.items (cfg : Config) (e : Event) : List InItem :=
  match e with
  | .step => []
  | .host h => h.items cfg

/-- `st 0, st 1, …` is a run under the events `ev 0, ev 1, …`. -/
def IsRun (ev : Nat → Event) (st : Nat → State) : Prop := ∀ n, (ev n).answer (st n) = .next (st (n + 1))

/-- All the items the host has supplied when `n` events are over: those queued in `s`, then those that came since. -/
def itemsBy (ev : Nat → Event) (s : State) (n : Nat) : List InItem :=
  s.inQ ++ (List.range n).flatMap (fun k => (ev k).items s.cfg)

/-- `InputsAre(s, xs)` with the stream then closed (R265), in a run from `s` under the events `ev`: whenever they come,
the items are exactly `xs` in order and then TransportFailed forever. -/
def InputsAreClosed (ev : Nat → Event) (s : State) (xs : List InItem) : Prop :=
  (∀ n i item, (itemsBy ev s n)[i]? = some item → item = xs.getD i .transportFailed) ∧
  ∀ i, ∃ n, i < (itemsBy ev s n).length

/-- `InputsAre(s, xs)` with the stream then open and silent (R265): exactly `xs` in order, and nothing more. -/
def InputsAreOpen (ev : Nat → Event) (s : State) (xs : List InItem) : Prop :=
  (∀ n, itemsBy ev s n <+: xs) ∧ ∃ n, itemsBy ev s n = xs

/-- `SinkAccepts` (R265) of one state: the sink's fields promise Accepted to every offer. -/
def SinkAccepts (s : State) : Prop := (∀ a ∈ s.sinkQ, a = SinkAnswer.accepted) ∧ s.sinkRest = some .accepted

/-- `SinkAccepts` (R265) of a run: no answer is ever SinkFailed, and an offer that is held is answered at some time. -/
def SinkAcceptsAlong (st : Nat → State) : Prop :=
  (∀ n, (∀ a ∈ (st n).sinkQ, a = SinkAnswer.accepted) ∧ (st n).sinkRest ≠ some .sinkFailed) ∧
  ∀ n, (st n).heldForOutput = true → ∃ m, n ≤ m ∧ (st m).heldForOutput = false

/-- The body of a line that R182 reads as a number: one or more decimal digits after an optional sign. -/
def IsNumeral (body : List Char) : Prop :=
  ∃ digits : List Nat, digits ≠ [] ∧ (∀ d ∈ digits, d < 10) ∧
    (body = digits.map Nat.digitChar ∨ body = '-' :: digits.map Nat.digitChar ∨
      body = '+' :: digits.map Nat.digitChar)

/-- The two states differ at most in the extent and in the growth policy that made it (R56). -/
def EqUpToExtent (s t : State) : Prop :=
  t = { s with
    cfg := { s.cfg with grow := t.cfg.grow }, mem := { cells := s.mem.cells, extent := t.mem.extent } }

/-- The state after a store: `v` in cell `d` and every other cell as before, the extent not smaller and beyond `d`, and
nothing but the memory changed (R54, R55). -/
def StoredAt (s t : State) (d : Nat) (v : Int) : Prop :=
  t = s.setMem t.mem ∧
  readCell t.mem d = v ∧
  (∀ c, c ≠ d → readCell t.mem c = readCell s.mem c) ∧
  (d < s.mem.extent → t.mem.extent = s.mem.extent) ∧
  (s.mem.extent ≤ d → t.mem.extent = growExtent s.cfg s.mem.extent d ∧ d + 1 ≤ t.mem.extent)

/-- The faults that apply to a format F3 instruction with opcode integer `opcode` and result `f a b` (the Exceptions of
R170, R171, R200, R201): `bounded` says whether the result can overflow. -/
def F3Fault (opcode : Int) (f : Int → Int → Int) (bounded : Bool) (o1 o2 o3 : Operand) (s : State)
    (e : Fault) : Prop :=
  (o3.mode = .immediate ∧ e = .addressingError opcode) ∨
  resolveValue s o1 = .error e ∨
  resolveValue s o2 = .error e ∨
  (o3.mode ≠ .immediate ∧ resolveAddress opcode s o3 = .error e) ∨
  (∃ d, resolveAddress opcode s o3 = .ok d ∧ overCapacity s.cfg d.toNat = true ∧ e = .outOfMemory d) ∨
  (∃ a b, resolveValue s o1 = .ok a ∧ resolveValue s o2 = .ok b ∧ bounded = true ∧
    fits s.cfg.width (f a b) = false ∧ e = .overflow) ∨
  (fits s.cfg.width (s.ip + 4) = false ∧ e = .overflow)

/-- What a format F3 rule says of the instruction `mk o1 o2 o3` with operation number `op` and result `f a b`: its cells
(Encoding); the result stored in the destination, every other cell kept, `ip + 4`, nothing else changed (Effect, with
the sources read in the state before); and, when some exception of the rule applies, one that applies is raised in the
unchanged state (Exceptions). -/
def F3Rule (mk : Operand → Operand → Operand → Instr) (op : Nat) (f : Int → Int → Int)
    (bounded : Bool) : Prop :=
  ∀ (o1 o2 o3 : Operand) (s : State) (opcode : Int),
    opcode = ((op + 100 * digitOf o1.mode + 1000 * digitOf o2.mode + 10000 * digitOf o3.mode : Nat) : Int) →
    encode (mk o1 o2 o3) = [opcode, o1.lit, o2.lit, o3.lit] ∧
    (∀ a b d, s.mem.wf = true → resolveValue s o1 = .ok a → resolveValue s o2 = .ok b →
      resolveAddress opcode s o3 = .ok d → overCapacity s.cfg d.toNat = false →
      (bounded = true → fits s.cfg.width (f a b) = true) → fits s.cfg.width (s.ip + 4) = true →
      ∃ t, StoredAt s t d.toNat (f a b) ∧ exec (mk o1 o2 o3) s = .next (t.setIp (s.ip + 4))) ∧
    ((∃ e, F3Fault opcode f bounded o1 o2 o3 s e) →
      ∃ e, F3Fault opcode f bounded o1 o2 o3 s e ∧ exec (mk o1 o2 o3) s = .next (raise e s))

end Sys2Proof.Machine
end

