-- ==== Sys2Proof/Certificates/Slice0/Obligations.lean ====
section
/-! DEFINITION. The statements about the model, one per `Obligations.<Name>`; each docstring names the spec's text it
formalises. `F3Rule`, `StoredAt`, `EqUpToExtent` and `State.inv` are in Sys2Proof/Safety.lean. -/

open Sys2Proof Sys2Proof.Machine

/-! ### Reset and the ports -/

/-- R260, R37: reset with an image, from any state. The premises are the loader's (R262). That the parameters and the
sink's fields stay is the model's choice, since both are its own fields (log 1, 5). -/
def Obligations.LoadPutsTheImageInACleanMachine : Prop :=
  ∀ (s : State) (image : List Int),
    imageFitsMemory s.cfg image = true → image.all (fits s.cfg.width) = true →
    ∃ t, s.load image = .next t ∧ t.ip = 0 ∧ t.bp = 0 ∧ (∀ a, readCell t.mem a = image.getD a 0) ∧
      t.mem.extent = image.length ∧ t.status = .idle ∧ t.cause = .none ∧ t.causeInfo = 0 ∧ t.result = none ∧
      t.out = [] ∧ t.inQ = s.inQ ∧ t.cfg = s.cfg ∧ t.sinkQ = s.sinkQ ∧ t.sinkRest = s.sinkRest

/-- R37 for the empty image. That State.reset has the empty image, R6's defaults, an empty input queue and an accepting
sink is the model's choice (log 5, 6, 11, 12). -/
def Obligations.ResetStateHoldsTheResetValues : Prop :=
  State.reset.ip = 0 ∧ State.reset.bp = 0 ∧ State.reset.mem.extent = 0 ∧ (∀ a, readCell State.reset.mem a = 0) ∧
  State.reset.status = .idle ∧ State.reset.cause = .none ∧ State.reset.causeInfo = 0 ∧ State.reset.result = none ∧
  State.reset.out = [] ∧ State.reset.cfg = Config.defaults ∧ State.reset.inQ = [] ∧ State.reset.sinkQ = [] ∧
  State.reset.sinkRest = some .accepted

/-- R262: what the loader must refuse, and that it refuses nothing else. Which name an image bad in both ways gets is the
model's choice (log 20). -/
def Obligations.LoadRefusesExactlyTheBadImages : Prop :=
  ∀ (s : State) (image : List Int),
    (imageFitsMemory s.cfg image = false → s.load image = .refused .imageTooLong) ∧
    (imageFitsMemory s.cfg image = true → image.all (fits s.cfg.width) = false →
      s.load image = .refused .integerOutOfRange) ∧
    (imageFitsMemory s.cfg image = true → image.all (fits s.cfg.width) = true → ∃ t, s.load image = .next t) ∧
    (imageFitsMemory s.cfg image = false ↔ ∃ n, s.cfg.memMax = some n ∧ n < image.length)

/-- R150, R268, D17: `start` runs a machine that is IDLE and is refused in every other status; without it nothing runs
(that such a step is a next state with nothing changed is the model's choice, log 4). -/
def Obligations.StartRunsOnlyAnIdleMachine : Prop :=
  ∀ s : State,
    (s.status = .idle → s.start = .next { s with status := .running } ∧ step s = .next s) ∧
    (s.status ≠ .idle → s.start = .refused .startNotIdle)

/-- R268, D22: the host's `wr` and `rd` reach memory through R54 and R53 while IDLE and are refused in every other status.
That a bad address is answered as a fault in the unchanged state is the model's choice (log 14). -/
def Obligations.PokesReachAnIdleMachineOnly : Prop :=
  ∀ (s : State) (a v : Int),
    (s.status ≠ .idle → s.poke a v = .refused .pokeNotIdle ∧ s.peek a = .error (.inr .pokeNotIdle)) ∧
    (s.status = .idle → fits s.cfg.width a = true → fits s.cfg.width v = true →
      (a < 0 → s.poke a v = .fault (.negativeAddress a) ∧ s.peek a = .error (.inl (.negativeAddress a))) ∧
      (0 ≤ a → overCapacity s.cfg a.toNat = true → s.poke a v = .fault (.outOfMemory a)) ∧
      (0 ≤ a → overCapacity s.cfg a.toNat = false → s.mem.wf = true →
        ∃ t, s.poke a v = .next t ∧ StoredAt s t a.toNat v) ∧
      (0 ≤ a → s.peek a = .ok (readCell s.mem a.toNat)))

/-- R248: the debug port. -/
def Obligations.InspectShowsPointersAndEveryPresentCell : Prop :=
  ∀ s : State, ∃ cells : List Int,
    s.inspect = (s.ip, s.bp, cells) ∧ cells.length = s.mem.extent ∧
    ∀ a, a < s.mem.extent → cells[a]? = some (readCell s.mem a)

/-- R182 (D20) and R184 (D15): the five rows of the table: a number, with `-`, with `+`, outside `Int`; any other line,
the empty one included; no line. The whitespace removed is the model's choice (log 16). -/
def Obligations.InputLinesBecomeItems : Prop :=
  ∀ cfg : Config,
    (∀ (before after : List Char) (digits : List Nat) (n : Nat) (item : Int → InItem),
      (∀ c ∈ before, c.isWhitespace = true) → (∀ c ∈ after, c.isWhitespace = true) →
      digits ≠ [] → (∀ d ∈ digits, d < 10) → n = digits.foldl (fun v d => 10 * v + d) 0 →
      (∀ v, item v = if fits cfg.width v then .value v else .unparseable) →
      lineItem cfg (some (before ++ digits.map Nat.digitChar ++ after)) = item (n : Int) ∧
      lineItem cfg (some (before ++ '-' :: digits.map Nat.digitChar ++ after)) = item (-(n : Int)) ∧
      lineItem cfg (some (before ++ '+' :: digits.map Nat.digitChar ++ after)) =
        (if cfg.plusSignOk then item (n : Int) else .unparseable)) ∧
    (∀ line : List Char,
      (∀ before body after : List Char, (∀ c ∈ before, c.isWhitespace = true) →
        (∀ c ∈ after, c.isWhitespace = true) → line = before ++ body ++ after → ¬ IsNumeral body) →
      lineItem cfg (some line) = .unparseable) ∧
    lineItem cfg none = .transportFailed

/-- R30, R268: the host's item goes to the tail of the queue, in any status, and nothing else changes; a number outside
`Int` goes there as Unparseable (log 15), a line as the item of its row. -/
def Obligations.SuppliedItemsGoToTheTail : Prop :=
  ∀ (s : State) (item : InItem) (v : Int) (line : Option (List Char)),
    ((∀ u, item = .value u → fits s.cfg.width u = true) →
      act (.supply item) s = .next { s with inQ := s.inQ ++ [item] }) ∧
    (fits s.cfg.width v = false → act (.supply (.value v)) s = .next { s with inQ := s.inQ ++ [.unparseable] }) ∧
    act (.supplyLine line) s = .next { s with inQ := s.inQ ++ [lineItem s.cfg line] }

/-! ### Memory -/

/-- R53: MemRead. That it changes nothing is in its type: it gives a value or a fault, never a memory. -/
def Obligations.MemReadFollowsItsThreeCases : Prop :=
  ∀ (m : Memory) (a : Int),
    (a < 0 → memRead m a = .error (.negativeAddress a)) ∧
    (0 ≤ a → m.extent ≤ a.toNat → memRead m a = .ok 0) ∧
    (0 ≤ a → a.toNat < m.extent → memRead m a = .ok (lookup m.cells a.toNat))

/-- R54 and R55: a write that is not refused stores its value, keeps every other cell, and grows the memory exactly when
the address is at or beyond the extent, never past MEM_MAX (R71). -/
def Obligations.MemWriteStoresOneCellAndKeepsTheRest : Prop :=
  ∀ (cfg : Config) (m : Memory) (a v : Int),
    m.wf = true → 0 ≤ a → overCapacity cfg a.toNat = false →
    ∃ m', memWrite cfg m a v = .ok m' ∧ m'.wf = true ∧ memRead m' a = .ok v ∧
      (∀ c, c ≠ a → memRead m' c = memRead m c) ∧
      (a.toNat < m.extent → m'.extent = m.extent) ∧
      (m.extent ≤ a.toNat → m'.extent = growExtent cfg m.extent a.toNat) ∧
      (∀ n, cfg.memMax = some n → m.extent ≤ n → m'.extent ≤ n)

/-- R52, R54, R227: the two refusals of MemWrite. -/
def Obligations.MemWriteFaultsOnBadAddresses : Prop :=
  ∀ (cfg : Config) (m : Memory) (a v : Int),
    (a < 0 → memWrite cfg m a v = .error (.negativeAddress a)) ∧
    (∀ n, 0 ≤ a → cfg.memMax = some n → (n : Int) ≤ a → memWrite cfg m a v = .error (.outOfMemory a))

/-- R6, R54, R56: every growth policy makes room for the written cell and stays within MEM_MAX; the default is direct
sizing. A statement about the free value: it holds for every value of Config.growSlack. -/
def Obligations.EveryGrowthPolicyMakesRoom : Prop :=
  ∀ (cfg : Config) (extent a : Nat),
    (overCapacity cfg a = false → a + 1 ≤ growExtent cfg extent a) ∧
    (∀ n, cfg.memMax = some n → growExtent cfg extent a ≤ n) ∧
    (cfg.grow = .direct → cfg.memMax = none → growExtent cfg extent a = a + 1) ∧
    (cfg.grow = .doubling → cfg.memMax = none → growExtent cfg extent a = max (2 * extent) (a + 1))

/-! ### Encoding -/

/-- R81, R84, R86, R91, R110, R112: the integers Decode accepts, and with what. -/
def Obligations.DecodeReadsTheFiveDigits : Prop :=
  ∀ (v : Int) (c : OpCode),
    decodeOpcode v = .ok c ↔
      0 ≤ v ∧ v < 100000 ∧ opKind (v.toNat % 100) = some c.kind ∧
      modeOf (v.toNat / 100 % 10) = some c.m1 ∧ modeOf (v.toNat / 1000 % 10) = some c.m2 ∧
      modeOf (v.toNat / 10000 % 10) = some c.m3

/-- R111, with R84: the fixed table of operation numbers, `v mod 100`, and that any other remainder does not decode, 0
never. The negative integers are DecodeReadsTheFiveDigits' (D2). -/
def Obligations.OperationNumbersSelectTheKinds : Prop :=
  ∃ table : List (Nat × Kind),
    table = [(1, .add), (2, .multiply), (3, .input), (4, .output), (5, .jumpIfTrue), (6, .jumpIfFalse),
      (7, .testLessThan), (8, .testEqual), (9, .adjustBase), (99, .halt)] ∧
    (∀ n k, n < 100 → (opKind n = some k ↔ (n, k) ∈ table)) ∧
    ∀ v : Int, 0 ≤ v →
      (∀ c, decodeOpcode v = .ok c → (v.toNat % 100, c.kind) ∈ table) ∧
      ((∀ k, (v.toNat % 100, k) ∉ table) → decodeOpcode v = .error (.malformed v)) ∧
      (∀ k, (v.toNat, k) ∈ table → decodeOpcode v = .ok ⟨k, .address, .address, .address⟩)

/-- R115: Encode and Decode are inverse. -/
def Obligations.OpcodeIntegersRoundTrip : Prop :=
  (∀ c : OpCode, decodeOpcode (encodeOpcode c) = .ok c) ∧
  (∀ (v : Int) (c : OpCode), decodeOpcode v = .ok c → encodeOpcode c = v)

/-- R80, R81, R115, R116, for whole instructions: decoding the cells of any instruction gives it back, whatever follows
them, and the cells of a decoded instruction are the ones it was read from (a cell past the end of the list reads 0). -/
def Obligations.InstructionsRoundTrip : Prop :=
  (∀ (i : Instr) (rest : List Int), decode (encode i ++ rest) = .ok i) ∧
  (∀ (cells : List Int) (i : Instr), decode cells = .ok i →
    encode i = (List.range i.opCode.kind.width).map (fun k => cells.getD k 0))

/-- R92, R114: exactly 270 integers decode, 45 of them with an Immediate destination. -/
def Obligations.ExactlyTwoHundredSeventyIntegersDecode : Prop :=
  ∃ accepted : List Int,
    accepted.Nodup ∧ accepted.length = 270 ∧ (∀ v, v ∈ accepted ↔ ∃ c, decodeOpcode v = .ok c) ∧
    (accepted.filter (fun v =>
      match decode [v] with
      | .ok i => !i.destIsCell
      | .error _ => false)).length = 45

/-- R120, the table of worked decodes; then a word of each kind that the table leaves out, from V5. -/
def Obligations.WorkedDecodesAgree : Prop :=
  decodeOpcode 1002 = .ok ⟨.multiply, .address, .immediate, .address⟩ ∧
  decodeOpcode 1101 = .ok ⟨.add, .immediate, .immediate, .address⟩ ∧
  decodeOpcode 1 = .ok ⟨.add, .address, .address, .address⟩ ∧
  decodeOpcode 99 = .ok ⟨.halt, .address, .address, .address⟩ ∧
  decodeOpcode 204 = .ok ⟨.output, .relative, .address, .address⟩ ∧
  decodeOpcode 21107 = .ok ⟨.testLessThan, .immediate, .immediate, .relative⟩ ∧
  decodeOpcode 22299 = .ok ⟨.halt, .relative, .relative, .relative⟩ ∧
  decodeOpcode 10001 = .ok ⟨.add, .address, .address, .immediate⟩ ∧
  decodeOpcode 103 = .ok ⟨.input, .immediate, .address, .address⟩ ∧
  (∀ v ∈ ([0, 33, 10, 100, 301, 399, 90001, 100001, -1, -99] : List Int), decodeOpcode v = .error (.malformed v)) ∧
  decodeOpcode 2105 = .ok ⟨.jumpIfTrue, .immediate, .relative, .address⟩ ∧
  decodeOpcode 1006 = .ok ⟨.jumpIfFalse, .address, .immediate, .address⟩ ∧
  decodeOpcode 1108 = .ok ⟨.testEqual, .immediate, .immediate, .address⟩ ∧
  decodeOpcode 209 = .ok ⟨.adjustBase, .relative, .address, .address⟩

/-- R85, R112: a valid digit in an unused slot has no effect; for IN it shows only in the opcode integer an
AddressingError reports (R222). -/
def Obligations.UnusedModeSlotsHaveNoEffect : Prop :=
  ∀ (o1 o2 : Operand) (u1 u2 u3 v1 v2 v3 : Mode) (s : State),
    exec (.output o1 u2 u3) s = exec (.output o1 v2 v3) s ∧
    exec (.jumpIfTrue o1 o2 u3) s = exec (.jumpIfTrue o1 o2 v3) s ∧
    exec (.jumpIfFalse o1 o2 u3) s = exec (.jumpIfFalse o1 o2 v3) s ∧
    exec (.adjustBase o1 u2 u3) s = exec (.adjustBase o1 v2 v3) s ∧
    exec (.halt u1 u2 u3) s = exec (.halt v1 v2 v3) s ∧
    (o1.mode ≠ .immediate → exec (.input o1 u2 u3) s = exec (.input o1 v2 v3) s)

/-! ### Operands -/

/-- R131: ResolveValue in the three modes; a Relative sum outside a finite width is the Overflow of R130 and R226 (D1). -/
def Obligations.SourceOperandsResolveByMode : Prop :=
  ∀ (s : State) (lit : Int),
    resolveValue s ⟨.immediate, lit⟩ = .ok lit ∧
    resolveValue s ⟨.address, lit⟩ = memRead s.mem lit ∧
    (fits s.cfg.width (s.bp + lit) = true → resolveValue s ⟨.relative, lit⟩ = memRead s.mem (s.bp + lit)) ∧
    (fits s.cfg.width (s.bp + lit) = false → resolveValue s ⟨.relative, lit⟩ = .error .overflow)

/-- R132 (D10): ResolveAddress in the three modes. -/
def Obligations.DestinationOperandsResolveByMode : Prop :=
  ∀ (s : State) (lit opcode : Int),
    resolveAddress opcode s ⟨.immediate, lit⟩ = .error (.addressingError opcode) ∧
    resolveAddress opcode s ⟨.address, lit⟩ = (if lit < 0 then .error (.negativeAddress lit) else .ok lit) ∧
    (fits s.cfg.width (s.bp + lit) = true →
      resolveAddress opcode s ⟨.relative, lit⟩ =
        (if s.bp + lit < 0 then .error (.negativeAddress (s.bp + lit)) else .ok (s.bp + lit))) ∧
    (fits s.cfg.width (s.bp + lit) = false → resolveAddress opcode s ⟨.relative, lit⟩ = .error .overflow)

/-! ### The instructions -/

/-- R170: Add; its exceptions are the rule's, and the Overflow of `bp + lit` (R130) and of `ip + 4` (R156), both R226 (D1). -/
def Obligations.AddStoresTheExactSum : Prop := F3Rule .add 1 (fun a b => a + b) true

/-- R171: Multiply; its exceptions are the rule's, and the Overflow of `bp + lit` (R130) and of `ip + 4` (R156), both R226 (D1). -/
def Obligations.MultiplyStoresTheExactProduct : Prop := F3Rule .multiply 2 (fun a b => a * b) true

/-- R200: TestLessThan, whose result cannot overflow; its exceptions are the rule's, and the Overflow of `bp + lit` (R130) and of `ip + 4` (R156), both R226 (D1). -/
def Obligations.LessThanStoresOneOrZero : Prop :=
  F3Rule .testLessThan 7 (fun a b => if a < b then 1 else 0) false

/-- R201: TestEqual, whose result cannot overflow; its exceptions are the rule's, and the Overflow of `bp + lit` (R130) and of `ip + 4` (R156), both R226 (D1). -/
def Obligations.EqualStoresOneOrZero : Prop :=
  F3Rule .testEqual 8 (fun a b => if a = b then 1 else 0) false

/-- R228 (D8) items 4 to 7, for the four format F3 kinds, which the first line names: the first cause in this order is
the one reported. That OutOfMemory comes before the result's Overflow is read from R228 (log 8). -/
def Obligations.BinaryInstructionsReportTheFirstCause : Prop :=
  ∀ (mk : Operand → Operand → Operand → Instr) (o1 o2 o3 : Operand) (s : State) (opcode : Int),
    mk = .add ∨ mk = .multiply ∨ mk = .testLessThan ∨ mk = .testEqual →
    opcode = encodeOpcode (mk o1 o2 o3).opCode →
    (o3.mode = .immediate → exec (mk o1 o2 o3) s = .next (raise (.addressingError opcode) s)) ∧
    (o3.mode ≠ .immediate →
      (∀ e, resolveValue s o1 = .error e → exec (mk o1 o2 o3) s = .next (raise e s)) ∧
      (∀ a e, resolveValue s o1 = .ok a → resolveValue s o2 = .error e →
        exec (mk o1 o2 o3) s = .next (raise e s)) ∧
      (∀ a b e, resolveValue s o1 = .ok a → resolveValue s o2 = .ok b → resolveAddress opcode s o3 = .error e →
        exec (mk o1 o2 o3) s = .next (raise e s)) ∧
      (∀ a b d, resolveValue s o1 = .ok a → resolveValue s o2 = .ok b → resolveAddress opcode s o3 = .ok d →
        overCapacity s.cfg d.toNat = true → exec (mk o1 o2 o3) s = .next (raise (.outOfMemory d) s)))

/-- R117, R222 (D6), R228 item 4: an Immediate destination is rejected whatever the sources and the input queue are, and
no other instruction ever raises AddressingError. -/
def Obligations.ImmediateDestinationsAreRejectedFirst : Prop :=
  ∀ (i : Instr) (s : State),
    (i.destIsCell = false → exec i s = .next (raise (.addressingError (encodeOpcode i.opCode)) s)) ∧
    (i.destIsCell = true → ∀ t, s.status = .running → exec i s = .next t → t.status = .faulted →
      t.cause ≠ .addressingError)

/-- R180: Input's cells; with a value waiting, the value is stored, the one item is gone, `ip + 2`, nothing else
changed. -/
def Obligations.InputStoresTheNextValue : Prop :=
  ∀ (o1 : Operand) (u2 u3 : Mode) (s : State) (opcode : Int),
    opcode = ((3 + 100 * digitOf o1.mode + 1000 * digitOf u2 + 10000 * digitOf u3 : Nat) : Int) →
    encode (.input o1 u2 u3) = [opcode, o1.lit] ∧
    (∀ (d x : Int) (rest : List InItem), s.mem.wf = true →
      resolveAddress opcode s o1 = .ok d → overCapacity s.cfg d.toNat = false →
      fits s.cfg.width (s.ip + 2) = true → s.inQ = .value x :: rest →
      ∃ t, StoredAt (s.setInQ rest) t d.toNat x ∧ exec (.input o1 u2 u3) s = .next (t.setIp (s.ip + 2)))

/-- R180, R228 items 6 and 7 (D8, D10): Input's own checks fault before an item is taken or waited for. -/
def Obligations.InputChecksItsDestinationBeforeTheQueue : Prop :=
  ∀ (o1 : Operand) (u2 u3 : Mode) (s : State) (opcode : Int),
    opcode = encodeOpcode ⟨.input, o1.mode, u2, u3⟩ →
    (∀ e, resolveAddress opcode s o1 = .error e → exec (.input o1 u2 u3) s = .next (raise e s)) ∧
    (∀ d, resolveAddress opcode s o1 = .ok d → overCapacity s.cfg d.toNat = true →
      exec (.input o1 u2 u3) s = .next (raise (.outOfMemory d) s)) ∧
    (∀ d, resolveAddress opcode s o1 = .ok d → overCapacity s.cfg d.toNat = false →
      fits s.cfg.width (s.ip + 2) = false → exec (.input o1 u2 u3) s = .next (raise .overflow s))

/-- R181, R183 (D10), R184: with its destination good, Input holds on an empty queue (a next state with nothing changed,
log 3), and a bad item is consumed and faults with nothing stored. -/
def Obligations.InputHoldsOnNothingAndFaultsOnBadItems : Prop :=
  ∀ (o1 : Operand) (u2 u3 : Mode) (s : State) (d : Int) (rest : List InItem),
    resolveAddress (encodeOpcode ⟨.input, o1.mode, u2, u3⟩) s o1 = .ok d → overCapacity s.cfg d.toNat = false →
    fits s.cfg.width (s.ip + 2) = true →
    (s.inQ = [] → exec (.input o1 u2 u3) s = .next s) ∧
    (s.inQ = .unparseable :: rest →
      exec (.input o1 u2 u3) s = .next (raise .inputParseError (s.setInQ rest))) ∧
    (s.inQ = .transportFailed :: rest →
      exec (.input o1 u2 u3) s = .next (raise (.ioError .inputSide) (s.setInQ rest)))

/-- R185, R186, R225: Output's cells, and Output when the sink has answered. The sink's answers stand in the model's own
fields (log 5), one answer is used up by one offer, a refused one too (log 17), and a hold is a next state (log 3). -/
def Obligations.OutputAppendsWhatTheSinkAccepts : Prop :=
  ∀ (o1 : Operand) (u2 u3 : Mode) (s : State),
    encode (.output o1 u2 u3) =
      [((4 + 100 * digitOf o1.mode + 1000 * digitOf u2 + 10000 * digitOf u3 : Nat) : Int), o1.lit] ∧
    (∀ (x : Int) (rest : List SinkAnswer), resolveValue s o1 = .ok x → fits s.cfg.width (s.ip + 2) = true →
      (nextAnswer s = some (.accepted, rest) →
        exec (.output o1 u2 u3) s = .next { s with out := s.out ++ [x], sinkQ := rest, ip := s.ip + 2 }) ∧
      (nextAnswer s = some (.sinkFailed, rest) →
        exec (.output o1 u2 u3) s = .next (raise (.ioError .outputSide) { s with sinkQ := rest })) ∧
      (nextAnswer s = none → exec (.output o1 u2 u3) s = .next s))

/-- R185, R228 items 5 and 7 (D8): Output faults before it offers anything. That the Overflow of the next `ip` comes
before the offer, and before a hold on a silent sink, is read from R228 (log 8). -/
def Obligations.OutputFaultsBeforeItOffers : Prop :=
  ∀ (o1 : Operand) (u2 u3 : Mode) (s : State),
    (∀ e, resolveValue s o1 = .error e → exec (.output o1 u2 u3) s = .next (raise e s)) ∧
    (∀ x, resolveValue s o1 = .ok x → fits s.cfg.width (s.ip + 2) = false →
      exec (.output o1 u2 u3) s = .next (raise .overflow s))

/-- R265 SinkAccepts: of a state, it is kept by every step, and under it no Output is ever held; of a run, under it no
step ends in an output-side IOError. -/
def Obligations.AnAcceptingSinkNeverHolds : Prop :=
  (∀ s : State, SinkAccepts s → s.heldForOutput = false ∧ ∀ t, step s = .next t → SinkAccepts t) ∧
  (∀ (ev : Nat → Event) (st : Nat → State), IsRun ev st → SinkAcceptsAlong st →
    ∀ n, ev n = .step → (st n).status = .running → (st (n + 1)).statusPort ≠ (3, 5, 1))

/-- R190, R194, R195: JumpIfTrue's cells; with both operands resolved, the target is stored whatever it is, nothing else
changes. -/
def Obligations.JumpIfTrueJumpsOnNonzero : Prop :=
  ∀ (o1 o2 : Operand) (u3 : Mode) (s : State),
    encode (.jumpIfTrue o1 o2 u3) =
      [((5 + 100 * digitOf o1.mode + 1000 * digitOf o2.mode + 10000 * digitOf u3 : Nat) : Int), o1.lit, o2.lit] ∧
    (∀ c t : Int, resolveValue s o1 = .ok c → resolveValue s o2 = .ok t →
      (c ≠ 0 → exec (.jumpIfTrue o1 o2 u3) s = .next { s with ip := t }) ∧
      (c = 0 → fits s.cfg.width (s.ip + 3) = true → exec (.jumpIfTrue o1 o2 u3) s = .next { s with ip := s.ip + 3 }) ∧
      (c = 0 → fits s.cfg.width (s.ip + 3) = false → exec (.jumpIfTrue o1 o2 u3) s = .next (raise .overflow s)))

/-- R191, R194, R195: JumpIfFalse's cells, and JumpIfFalse with both operands resolved. -/
def Obligations.JumpIfFalseJumpsOnZero : Prop :=
  ∀ (o1 o2 : Operand) (u3 : Mode) (s : State),
    encode (.jumpIfFalse o1 o2 u3) =
      [((6 + 100 * digitOf o1.mode + 1000 * digitOf o2.mode + 10000 * digitOf u3 : Nat) : Int), o1.lit, o2.lit] ∧
    (∀ c t : Int, resolveValue s o1 = .ok c → resolveValue s o2 = .ok t →
      (c = 0 → exec (.jumpIfFalse o1 o2 u3) s = .next { s with ip := t }) ∧
      (c ≠ 0 → fits s.cfg.width (s.ip + 3) = true → exec (.jumpIfFalse o1 o2 u3) s = .next { s with ip := s.ip + 3 }) ∧
      (c ≠ 0 → fits s.cfg.width (s.ip + 3) = false → exec (.jumpIfFalse o1 o2 u3) s = .next (raise .overflow s)))

/-- R190 to R192 (D7), R195: a bad condition faults; a bad target faults when the jump is taken or LAZY_JUMP_TARGET is
false, and falls through (Overflow if `ip + 3` does not fit) when the jump is not taken and LAZY_JUMP_TARGET is true. `i`
is JT with `cond /= 0`, JF with `= 0`. -/
def Obligations.JumpOperandsFaultAsLazinessSays : Prop :=
  ∀ (o1 o2 : Operand) (u3 : Mode) (s : State) (i : Instr) (holds : Int → Prop),
    (i = .jumpIfTrue o1 o2 u3 ∧ holds = fun c => c ≠ 0) ∨ (i = .jumpIfFalse o1 o2 u3 ∧ holds = fun c => c = 0) →
    (∀ e, resolveValue s o1 = .error e → exec i s = .next (raise e s)) ∧
    (∀ c e, resolveValue s o1 = .ok c → resolveValue s o2 = .error e →
      (holds c ∨ s.cfg.lazyJumpTarget = false → exec i s = .next (raise e s)) ∧
      (¬ holds c → s.cfg.lazyJumpTarget = true → fits s.cfg.width (s.ip + 3) = true →
        exec i s = .next { s with ip := s.ip + 3 }) ∧
      (¬ holds c → s.cfg.lazyJumpTarget = true → fits s.cfg.width (s.ip + 3) = false →
        exec i s = .next (raise .overflow s)))

/-- R210: AdjustBase. The operand is read in the state before, so in Relative mode at the old base; nothing but `bp` and
`ip` changes. Its exceptions are the rule's, and the Overflow of `bp + lit` (R130) and of `ip + 2` (R156), both R226
(D1). -/
def Obligations.AdjustBaseAddsToTheBase : Prop :=
  ∀ (o1 : Operand) (u2 u3 : Mode) (s : State),
    encode (.adjustBase o1 u2 u3) =
      [((9 + 100 * digitOf o1.mode + 1000 * digitOf u2 + 10000 * digitOf u3 : Nat) : Int), o1.lit] ∧
    (∀ x, resolveValue s o1 = .ok x → fits s.cfg.width (s.bp + x) = true → fits s.cfg.width (s.ip + 2) = true →
      exec (.adjustBase o1 u2 u3) s = .next { s with bp := s.bp + x, ip := s.ip + 2 }) ∧
    (∀ e, resolveValue s o1 = .error e → exec (.adjustBase o1 u2 u3) s = .next (raise e s)) ∧
    (∀ x, resolveValue s o1 = .ok x →
      fits s.cfg.width (s.bp + x) = false ∨ fits s.cfg.width (s.ip + 2) = false →
      exec (.adjustBase o1 u2 u3) s = .next (raise .overflow s))

/-- R211, R156 (D5), R29: Halt's cell; Halt ends the run with cell 0 as the result, shown at the result port; nothing else changes but
`ip` under HALT_ADVANCES_IP. -/
def Obligations.HaltDeliversCellZero : Prop :=
  ∀ (u1 u2 u3 : Mode) (s : State),
    encode (.halt u1 u2 u3) = [((99 + 100 * digitOf u1 + 1000 * digitOf u2 + 10000 * digitOf u3 : Nat) : Int)] ∧
    (s.cfg.haltAdvancesIp = false →
      exec (.halt u1 u2 u3) s = .next { s with result := some (readCell s.mem 0), status := .halted }) ∧
    (s.cfg.haltAdvancesIp = true → fits s.cfg.width (s.ip + 1) = true →
      exec (.halt u1 u2 u3) s =
        .next { s with result := some (readCell s.mem 0), status := .halted, ip := s.ip + 1 }) ∧
    (s.cfg.haltAdvancesIp = true → fits s.cfg.width (s.ip + 1) = false →
      exec (.halt u1 u2 u3) s = .next (raise .overflow s)) ∧
    (∀ t, s.status = .running → exec (.halt u1 u2 u3) s = .next t → t.status = .halted →
      t.resultPort = some (readCell s.mem 0))

/-- R29: RESULT is shown only while HALTED; only the step of a Halt writes it, with the integer in cell 0; after reset
it is not valid. -/
def Obligations.ResultIsCellZeroAndShownOnlyWhileHalted : Prop :=
  ∀ s t : State,
    (s.status ≠ .halted → s.resultPort = none) ∧ (s.status = .halted → s.resultPort = s.result) ∧
    (step s = .next t → t.result ≠ s.result →
      (∃ u1 u2 u3, fetchInstr s = .ok (.halt u1 u2 u3)) ∧ s.status = .running ∧ t.status = .halted ∧
        t.resultPort = some (readCell s.mem 0)) ∧
    (∀ image, s.load image = .next t → t.result = none ∧ t.resultPort = none)

/-! ### Faults -/

/-- R13, R229, R220, R231, R27 (D13): what raising writes, cause by cause, and that it writes nothing else; and what the
status port shows while nothing is raised. -/
def Obligations.RaiseRecordsCauseAndDetail : Prop :=
  ∀ (s : State) (v : Int),
    (∀ f, raise f s = { s with status := .faulted, cause := f.cause, causeInfo := f.info }) ∧
    (s.status = .idle → s.cause = .none → s.causeInfo = 0 → s.statusPort = (0, 0, 0)) ∧
    (s.status = .running → s.cause = .none → s.causeInfo = 0 → s.statusPort = (1, 0, 0)) ∧
    (s.status = .halted → s.cause = .none → s.causeInfo = 0 → s.statusPort = (2, 0, 0)) ∧
    (raise (.decodeError v) s).statusPort = (3, 1, v) ∧
    (raise (.addressingError v) s).statusPort = (3, 2, v) ∧
    (raise (.negativeAddress v) s).statusPort = (3, 3, v) ∧
    (raise .inputParseError s).statusPort = (3, 4, 0) ∧
    (raise (.ioError .inputSide) s).statusPort = (3, 5, 0) ∧
    (raise (.ioError .outputSide) s).statusPort = (3, 5, 1) ∧
    (raise .overflow s).statusPort = (3, 6, 0) ∧
    (raise (.outOfMemory v) s).statusPort = (3, 7, v)

/-- R155, R230 (D9), R183: a step that faults changes nothing but STATUS, CAUSE and CAUSE_INFO, the one bad input item,
and the answer a failing sink gave (log 17). -/
def Obligations.FaultsHaveNoPartialEffect : Prop :=
  ∀ s t : State, s.status = .running → step s = .next t → t.status = .faulted →
    t.mem = s.mem ∧ t.ip = s.ip ∧ t.bp = s.bp ∧ t.out = s.out ∧ t.result = s.result ∧ t.cfg = s.cfg ∧
    t.sinkRest = s.sinkRest ∧
    (t.inQ = s.inQ ∨
      (t.cause = .inputParseError ∧ s.inQ = .unparseable :: t.inQ) ∨
      (t.cause = .ioError ∧ t.causeInfo = 0 ∧ s.inQ = .transportFailed :: t.inQ)) ∧
    (t.sinkQ = s.sinkQ ∨ (t.cause = .ioError ∧ t.causeInfo = 1 ∧ s.sinkQ = .sinkFailed :: t.sinkQ))

/-- R235: HALTED and FAULTED are final for steps and for every port event but a reset. That a step of an ended machine is
a next state, the same one, is the model's choice (log 4). -/
def Obligations.EndedRunsStayEnded : Prop :=
  ∀ s : State, s.ended = true →
    (∀ t, step s = .next t → t = s) ∧
    (∀ h t, act h s = .next t → (∃ image, h = .load image) ∨ t.status = s.status)

/-! ### The step -/

/-- R151, R116, R53 (D18), R67: when the cells at `ip` (those beyond the extent read 0) decode to an instruction whose
literal cells have addresses in range, the step is exec of it, in the same state: nothing is done around exec. -/
def Obligations.StepRunsTheDecodedInstruction : Prop :=
  ∀ (s : State) (i : Instr),
    s.status = .running → 0 ≤ s.ip →
    (∀ k : Nat, 1 ≤ k → k ≤ i.opCode.kind.arity → fits s.cfg.width (s.ip + k) = true) →
    decode [readCell s.mem s.ip.toNat, readCell s.mem (s.ip.toNat + 1), readCell s.mem (s.ip.toNat + 2),
      readCell s.mem (s.ip.toNat + 3)] = .ok i →
    step s = exec i s

/-- R152, R153: fetching at a negative `ip`, and at or beyond the extent. -/
def Obligations.FetchOutsideMemoryFaults : Prop :=
  ∀ s : State, s.status = .running →
    (s.ip < 0 → step s = .next (raise (.negativeAddress s.ip) s)) ∧
    (0 ≤ s.ip → s.mem.extent ≤ s.ip.toNat → step s = .next (raise (.decodeError 0) s))

/-- R154: an opcode integer that does not decode. -/
def Obligations.MalformedOpcodesFault : Prop :=
  ∀ (s : State) (v : Int) (e : DecodeFailure),
    s.status = .running → memRead s.mem s.ip = .ok v → decodeOpcode v = .error e →
    step s = .next (raise (.decodeError v) s)

/-- R116, R226, R228 item 3: a literal address outside a finite width, whatever the instruction's destination is. -/
def Obligations.LiteralAddressesOverflowBeforeAddressing : Prop :=
  ∀ (s : State) (v : Int) (c : OpCode) (k : Nat),
    s.status = .running → memRead s.mem s.ip = .ok v → decodeOpcode v = .ok c →
    1 ≤ k → k ≤ c.kind.arity → fits s.cfg.width (s.ip + k) = false →
    step s = .next (raise .overflow s)

/-- R13, R229, R232: every step gives a next state; the machine itself is never refused and never stops otherwise (that a
machine at rest answers its own state is the model's choice, log 3 and 4). -/
def Obligations.EveryStepGivesANextState : Prop :=
  ∀ s : State, ∃ t, step s = .next t

/-- R159, R181: while held at the Input fetched, nothing changes (log 3); when the host supplies a value the held Input
takes it in its very next step, stores it in the cell its destination operand names, and the queue is empty again. -/
def Obligations.AnInputHoldLastsUntilAnItemComes : Prop :=
  ∀ (s : State) (x : Int), s.heldForInput = true →
    ∃ (o1 : Operand) (u2 u3 : Mode) (d : Int),
      fetchInstr s = .ok (.input o1 u2 u3) ∧
      resolveAddress (encodeOpcode ⟨.input, o1.mode, u2, u3⟩) s o1 = .ok d ∧ s.inQ = [] ∧
      step s = .next s ∧
      (s.mem.wf = true → fits s.cfg.width x = true →
        ∃ t, StoredAt s t d.toNat x ∧ step (s.supply (.value x)) = .next (t.setIp (s.ip + 2)))

/-- R159, R186: while held at the Output fetched, nothing changes (log 3) and its value is offered; when the sink accepts,
that value is appended, `ip + 2`, and nothing else has changed. -/
def Obligations.AnOutputHoldLastsUntilTheSinkAnswers : Prop :=
  ∀ s : State, s.heldForOutput = true →
    ∃ (o1 : Operand) (u2 u3 : Mode) (x : Int),
      fetchInstr s = .ok (.output o1 u2 u3) ∧ resolveValue s o1 = .ok x ∧ s.offered = some x ∧
      step s = .next s ∧
      step (s.setSinkQ (s.sinkQ ++ [.accepted])) = .next { s with out := s.out ++ [x], ip := s.ip + 2 }

/-! ### Invariants and rules of the whole machine -/

/-- The invariant holds at reset. -/
def Obligations.ResetMeetsTheMachineInvariant : Prop := State.reset.inv = true

/-- R8, R71, R28, R29, R25: every step keeps the invariant: legal parameters, memory in canonical form, every integer an
`Int` of the width, `extent <= MEM_MAX`, CAUSE and RESULT in agreement with STATUS. -/
def Obligations.EveryStepKeepsTheMachineInvariant : Prop :=
  ∀ s t : State, s.inv = true → step s = .next t → t.inv = true

/-- The host's actions keep the invariant too; an item given to the queue is an `Int` or is Unparseable (R182, log 15). -/
def Obligations.HostActionsKeepTheMachineInvariant : Prop :=
  ∀ (s t : State) (h : HostAction), s.inv = true → act h s = .next t → t.inv = true

/-- R23: only AdjustBase writes `bp`. -/
def Obligations.OnlyAdjustBaseChangesTheBase : Prop :=
  ∀ s t : State, step s = .next t → t.bp ≠ s.bp → ∃ o1 u2 u3, fetchInstr s = .ok (.adjustBase o1 u2 u3)

/-- R188, R189, R31: only Input takes items, one from the head; only Output emits, one value at the end. -/
def Obligations.OnlyInputAndOutputTouchTheChannels : Prop :=
  ∀ s t : State, step s = .next t →
    (t.inQ = s.inQ ∨ (∃ o1 u2 u3 item, fetchInstr s = .ok (.input o1 u2 u3) ∧ s.inQ = item :: t.inQ)) ∧
    (t.out = s.out ∨ (∃ o1 u2 u3 x n, fetchInstr s = .ok (.output o1 u2 u3) ∧ outputOffer o1 s = .ok (x, n) ∧
      t.out = s.out ++ [x]))

/-- R30, R188, R265: along a run the queue is what the host has supplied, in order, less the items taken from its head,
at most one a step; with InputsAre for a closed stream, the item waiting is the next one of the stream. -/
def Obligations.InputsComeInTheOrderTheHostSuppliesThem : Prop :=
  ∀ (ev : Nat → Event) (st : Nat → State), IsRun ev st →
    ∃ taken : Nat → Nat, taken 0 = 0 ∧ ∀ n,
      (st n).inQ = (itemsBy ev (st 0) n).drop (taken n) ∧ taken n ≤ (itemsBy ev (st 0) n).length ∧
      (taken (n + 1) = taken n ∨
        (taken (n + 1) = taken n + 1 ∧ ev n = .step ∧ ∃ o1 u2 u3, fetchInstr (st n) = .ok (.input o1 u2 u3))) ∧
      (∀ xs item rest, InputsAreClosed ev (st 0) xs → (st n).inQ = item :: rest →
        item = xs.getD (taken n) .transportFailed) ∧
      (∀ xs item rest, InputsAreOpen ev (st 0) xs → (st n).inQ = item :: rest → xs[taken n]? = some item)

/-- R60, R62, R89: a step writes at most the one cell its instruction's destination operand names. -/
def Obligations.AStepWritesOnlyItsDestinationCell : Prop :=
  ∀ s t : State, s.mem.wf = true → step s = .next t →
    t.mem = s.mem ∨
    ∃ i o d, fetchInstr s = .ok i ∧ i.dest? = some o ∧
      resolveAddress (encodeOpcode i.opCode) s o = .ok d ∧ ∀ c, c ≠ d.toNat → readCell t.mem c = readCell s.mem c

/-- R26: the extent never shrinks, and a step that does not store at or beyond it keeps it. -/
def Obligations.TheExtentNeverShrinks : Prop :=
  ∀ s t : State, step s = .next t →
    s.mem.extent ≤ t.mem.extent ∧
    (t.mem.extent ≠ s.mem.extent →
      ∃ i o d, fetchInstr s = .ok i ∧ i.dest? = some o ∧
        resolveAddress (encodeOpcode i.opCode) s o = .ok d ∧ s.mem.extent ≤ d.toNat ∧
        t.mem.extent = growExtent s.cfg s.mem.extent d.toNat)

/-- R6, R32, R160: no step changes the parameters or the sink's policy (fields of the model, log 1 and 5). -/
def Obligations.ParametersAreFixed : Prop :=
  ∀ s t : State, step s = .next t → t.cfg = s.cfg ∧ t.sinkRest = s.sinkRest

/-- R56, R26: two machines that differ only in the extent and in the growth policy run in step and go on differing in
nothing else. -/
def Obligations.TheExtentCannotBeObserved : Prop :=
  ∀ s s' t : State, s.mem.wf = true → t.mem.wf = true → EqUpToExtent s t → step s = .next s' →
    ∃ t', step t = .next t' ∧ EqUpToExtent s' t' ∧ s'.mem.wf = true ∧ t'.mem.wf = true
end

