-- ==== Sys2Proof/Laws/Memory.lean ====
section
/-! SUPPORT. The laws of the memory array: a read after a write, a write elsewhere, growth, and that every memory
operation keeps the canonical form (20_memory.md R53 to R55). -/

namespace Sys2Proof.Machine

/-! ### The canonical form of a list of cells -/

theorem cellsWf_cons (e lo a : Nat) (v : Int) (t : List Cell) :
    cellsWf e lo ((a, v) :: t) = true ↔ lo ≤ a ∧ a < e ∧ v ≠ 0 ∧ cellsWf e (a + 1) t = true := by
  simp [cellsWf, and_assoc]

/-- A lower bound may be lowered and the extent raised. -/
theorem cellsWf_weaken {e e' lo lo' : Nat} {l : List Cell} (he : e ≤ e') (hlo : lo' ≤ lo)
    (h : cellsWf e lo l = true) : cellsWf e' lo' l = true := by
  induction l generalizing lo lo' with
  | nil => rfl
  | cons c t ih =>
    obtain ⟨a, v⟩ := c
    rw [cellsWf_cons] at h ⊢
    exact ⟨by omega, by omega, h.2.2.1, ih (Nat.le_refl _) h.2.2.2⟩

/-- An address below the bound is not listed. -/
theorem lookup_below {e lo a : Nat} {l : List Cell} (h : cellsWf e lo l = true) (ha : a < lo) : lookup l a = 0 := by
  induction l generalizing lo with
  | nil => rfl
  | cons c t ih =>
    obtain ⟨b, v⟩ := c
    rw [cellsWf_cons] at h
    rw [lookup, if_neg (by omega)]
    exact ih h.2.2.2 (by omega)

/-- Every listed cell is below the extent. -/
theorem mem_lt_of_cellsWf {e lo : Nat} {l : List Cell} (h : cellsWf e lo l = true) {c : Cell} (hc : c ∈ l) :
    c.1 < e := by
  induction l generalizing lo with
  | nil => cases hc
  | cons d t ih =>
    obtain ⟨b, v⟩ := d
    rw [cellsWf_cons] at h
    rcases List.mem_cons.mp hc with rfl | hc
    · exact h.2.1
    · exact ih h.2.2.2 hc

/-- In a memory in canonical form growth drops no cell. -/
theorem filter_below_extent {e lo : Nat} {l : List Cell} (h : cellsWf e lo l = true) :
    l.filter (fun c => decide (c.1 < e)) = l :=
  List.filter_eq_self.mpr fun _ hc => decide_eq_true (mem_lt_of_cellsWf h hc)

/-- An address at or beyond the extent is not listed. -/
theorem lookup_beyond {e lo a : Nat} {l : List Cell} (h : cellsWf e lo l = true) (ha : e ≤ a) : lookup l a = 0 := by
  induction l generalizing lo with
  | nil => rfl
  | cons c t ih =>
    obtain ⟨b, v⟩ := c
    rw [cellsWf_cons] at h
    rw [lookup, if_neg (by omega)]
    exact ih h.2.2.2

/-! ### putCell -/

theorem putCell_wf {e lo a : Nat} {l : List Cell} (v : Int) (h : cellsWf e lo l = true) (hlo : lo ≤ a) (ha : a < e) :
    cellsWf e lo (putCell l a v) = true := by
  induction l generalizing lo with
  | nil =>
    by_cases hv : v = 0
    · simp [putCell, hv, cellsWf]
    · simp [putCell, hv, cellsWf, hlo, ha]
  | cons c t ih =>
    obtain ⟨b, w⟩ := c
    have h' := (cellsWf_cons ..).mp h
    rw [putCell]
    split
    · exact (cellsWf_cons ..).mpr ⟨h'.1, h'.2.1, h'.2.2.1, ih h'.2.2.2 (by omega)⟩
    · split
      · split
        · exact cellsWf_weaken (Nat.le_refl _) (by omega) h'.2.2.2
        · next hv => exact (cellsWf_cons ..).mpr ⟨hlo, ha, hv, by subst_vars; exact h'.2.2.2⟩
      · split
        · exact h
        · next hv =>
          exact (cellsWf_cons ..).mpr ⟨hlo, ha, hv, (cellsWf_cons ..).mpr ⟨by omega, h'.2.1, h'.2.2.1, h'.2.2.2⟩⟩

/-- The read after the write. -/
theorem lookup_putCell_same {e lo a : Nat} {l : List Cell} (v : Int) (h : cellsWf e lo l = true) :
    lookup (putCell l a v) a = v := by
  induction l generalizing lo with
  | nil => by_cases hv : v = 0 <;> simp [putCell, hv, lookup]
  | cons c t ih =>
    obtain ⟨b, w⟩ := c
    have h' := (cellsWf_cons ..).mp h
    rw [putCell]
    split
    · rw [lookup, if_neg (by omega)]
      exact ih h'.2.2.2
    · split
      · split
        · next hv =>
          rw [hv]
          exact lookup_below h'.2.2.2 (by omega)
        · simp [lookup]
      · split
        · next hv =>
          rw [hv, lookup, if_neg (by omega)]
          exact lookup_below h'.2.2.2 (by omega)
        · simp [lookup]

/-- The write leaves every other address alone. -/
theorem lookup_putCell_other {a c : Nat} (l : List Cell) (v : Int) (hc : c ≠ a) :
    lookup (putCell l a v) c = lookup l c := by
  induction l with
  | nil => by_cases hv : v = 0 <;> simp [putCell, hv, lookup, Ne.symm hc]
  | cons d t ih =>
    obtain ⟨b, w⟩ := d
    rw [putCell]
    split
    · simp only [lookup, ih]
    · split
      · next hb => split <;> simp [lookup, hb, Ne.symm hc]
      · split <;> simp [lookup, Ne.symm hc]

/-! ### GROW -/

/-- GROW makes room for the written cell unless that is beyond the capacity (R54, R56). -/
theorem growExtent_gt {cfg : Config} {a : Nat} (extent : Nat) (h : overCapacity cfg a = false) :
    a + 1 ≤ growExtent cfg extent a := by
  simp only [overCapacity] at h
  simp only [growExtent]
  split at h <;> cases cfg.grow <;> simp_all

/-- GROW stays within MEM_MAX (R54). -/
theorem growExtent_le {cfg : Config} {n : Nat} (extent a : Nat) (h : cfg.memMax = some n) :
    growExtent cfg extent a ≤ n := by
  simp only [growExtent, h]
  exact Nat.min_le_right _ _

/-! ### storeCell -/

theorem storeCell_wf {cfg : Config} {m : Memory} {a : Nat} (v : Int) (h : m.wf = true)
    (hcap : overCapacity cfg a = false) : (storeCell cfg m a v).wf = true := by
  unfold storeCell
  split
  · next ha => exact putCell_wf v h (Nat.zero_le _) ha
  · have hg := growExtent_gt m.extent hcap
    rw [filter_below_extent h]
    exact putCell_wf v (cellsWf_weaken (e' := growExtent cfg m.extent a) (by omega) (Nat.le_refl _) h)
      (Nat.zero_le _) (Nat.lt_of_succ_le hg)

theorem readCell_eq_lookup {m : Memory} (h : m.wf = true) (a : Nat) : readCell m a = lookup m.cells a := by
  unfold readCell
  split
  · rfl
  · exact (lookup_beyond h (by omega)).symm

/-- In canonical form the cells a store leaves do not depend on the extent. -/
theorem storeCell_cells {cfg : Config} {m : Memory} (a : Nat) (v : Int) (h : m.wf = true) :
    (storeCell cfg m a v).cells = putCell m.cells a v := by
  unfold storeCell
  split
  · rfl
  · rw [filter_below_extent h]

theorem readCell_storeCell_same {cfg : Config} {m : Memory} {a : Nat} (v : Int) (h : m.wf = true)
    (hcap : overCapacity cfg a = false) : readCell (storeCell cfg m a v) a = v := by
  rw [readCell_eq_lookup (storeCell_wf v h hcap), storeCell_cells a v h]
  exact lookup_putCell_same v h

theorem readCell_storeCell_other {cfg : Config} {m : Memory} {a c : Nat} (v : Int) (h : m.wf = true)
    (hcap : overCapacity cfg a = false) (hc : c ≠ a) : readCell (storeCell cfg m a v) c = readCell m c := by
  rw [readCell_eq_lookup (storeCell_wf v h hcap), readCell_eq_lookup h, storeCell_cells a v h]
  exact lookup_putCell_other _ v hc

theorem storeCell_extent_below {cfg : Config} {m : Memory} {a : Nat} (v : Int) (ha : a < m.extent) :
    (storeCell cfg m a v).extent = m.extent := by
  rw [storeCell, if_pos ha]

theorem storeCell_extent_beyond {cfg : Config} {m : Memory} {a : Nat} (v : Int) (ha : m.extent ≤ a) :
    (storeCell cfg m a v).extent = growExtent cfg m.extent a := by
  rw [storeCell, if_neg (by omega)]

/-! ### The two primitives and the image -/

/-- What MemRead answers (R53). -/
theorem memRead_eq_ok {m : Memory} {a v : Int} : memRead m a = .ok v ↔ 0 ≤ a ∧ v = readCell m a.toNat := by
  unfold memRead
  split
  · simp only [reduceCtorEq, false_iff]
    omega
  · simp only [Except.ok.injEq]
    constructor
    · rintro rfl
      exact ⟨by omega, rfl⟩
    · rintro ⟨_, rfl⟩
      rfl

/-- What MemWrite answers (R54). -/
theorem memWrite_eq_ok {cfg : Config} {m m' : Memory} {a v : Int} :
    memWrite cfg m a v = .ok m' ↔ 0 ≤ a ∧ overCapacity cfg a.toNat = false ∧ m' = storeCell cfg m a.toNat v := by
  unfold memWrite
  split
  · simp only [reduceCtorEq, false_iff]
    omega
  · split
    · simp_all
    · simp_all only [Bool.not_eq_true, Except.ok.injEq, true_and]
      constructor
      · rintro rfl
        exact ⟨by omega, rfl⟩
      · rintro ⟨_, rfl⟩
        rfl

theorem memWrite_wf {cfg : Config} {m m' : Memory} {a v : Int} (h : m.wf = true)
    (hw : memWrite cfg m a v = .ok m') : m'.wf = true := by
  obtain ⟨_, hcap, rfl⟩ := memWrite_eq_ok.mp hw
  exact storeCell_wf v h hcap

theorem imageCells_wf (a : Nat) (image : List Int) : cellsWf (a + image.length) a (imageCells a image) = true := by
  induction image generalizing a with
  | nil => rfl
  | cons v vs ih =>
    have h := ih (a + 1)
    rw [imageCells, List.length_cons]
    rw [show a + 1 + vs.length = a + (vs.length + 1) by omega] at h
    split
    · exact cellsWf_weaken (Nat.le_refl _) (by omega) h
    · next hv => exact (cellsWf_cons ..).mpr ⟨Nat.le_refl _, by omega, hv, h⟩

/-- The memory of a reset is in canonical form. -/
theorem Memory.ofImage_wf (image : List Int) : (Memory.ofImage image).wf = true := by
  have h := imageCells_wf 0 image
  rwa [Nat.zero_add] at h

theorem State.reset_mem_wf : State.reset.mem.wf = true := Memory.ofImage_wf []

end Sys2Proof.Machine
end

