-- ==== Sys2Proof/Laws/State.lean ====
section
/-! SUPPORT. One lemma per field and per state update, so that no later proof unfolds an update. -/

namespace Sys2Proof.Machine

variable (s : State)

@[simp] theorem State.setMem_cfg (m : Memory) : (s.setMem m).cfg = s.cfg := rfl
@[simp] theorem State.setMem_mem (m : Memory) : (s.setMem m).mem = m := rfl
@[simp] theorem State.setMem_ip (m : Memory) : (s.setMem m).ip = s.ip := rfl
@[simp] theorem State.setMem_bp (m : Memory) : (s.setMem m).bp = s.bp := rfl
@[simp] theorem State.setMem_status (m : Memory) : (s.setMem m).status = s.status := rfl
@[simp] theorem State.setMem_cause (m : Memory) : (s.setMem m).cause = s.cause := rfl
@[simp] theorem State.setMem_causeInfo (m : Memory) : (s.setMem m).causeInfo = s.causeInfo := rfl
@[simp] theorem State.setMem_result (m : Memory) : (s.setMem m).result = s.result := rfl
@[simp] theorem State.setMem_inQ (m : Memory) : (s.setMem m).inQ = s.inQ := rfl
@[simp] theorem State.setMem_out (m : Memory) : (s.setMem m).out = s.out := rfl
@[simp] theorem State.setMem_sinkQ (m : Memory) : (s.setMem m).sinkQ = s.sinkQ := rfl
@[simp] theorem State.setMem_sinkRest (m : Memory) : (s.setMem m).sinkRest = s.sinkRest := rfl

@[simp] theorem State.setIp_cfg (v : Int) : (s.setIp v).cfg = s.cfg := rfl
@[simp] theorem State.setIp_mem (v : Int) : (s.setIp v).mem = s.mem := rfl
@[simp] theorem State.setIp_ip (v : Int) : (s.setIp v).ip = v := rfl
@[simp] theorem State.setIp_bp (v : Int) : (s.setIp v).bp = s.bp := rfl
@[simp] theorem State.setIp_status (v : Int) : (s.setIp v).status = s.status := rfl
@[simp] theorem State.setIp_cause (v : Int) : (s.setIp v).cause = s.cause := rfl
@[simp] theorem State.setIp_causeInfo (v : Int) : (s.setIp v).causeInfo = s.causeInfo := rfl
@[simp] theorem State.setIp_result (v : Int) : (s.setIp v).result = s.result := rfl
@[simp] theorem State.setIp_inQ (v : Int) : (s.setIp v).inQ = s.inQ := rfl
@[simp] theorem State.setIp_out (v : Int) : (s.setIp v).out = s.out := rfl
@[simp] theorem State.setIp_sinkQ (v : Int) : (s.setIp v).sinkQ = s.sinkQ := rfl
@[simp] theorem State.setIp_sinkRest (v : Int) : (s.setIp v).sinkRest = s.sinkRest := rfl

@[simp] theorem State.setBp_cfg (v : Int) : (s.setBp v).cfg = s.cfg := rfl
@[simp] theorem State.setBp_mem (v : Int) : (s.setBp v).mem = s.mem := rfl
@[simp] theorem State.setBp_ip (v : Int) : (s.setBp v).ip = s.ip := rfl
@[simp] theorem State.setBp_bp (v : Int) : (s.setBp v).bp = v := rfl
@[simp] theorem State.setBp_status (v : Int) : (s.setBp v).status = s.status := rfl
@[simp] theorem State.setBp_cause (v : Int) : (s.setBp v).cause = s.cause := rfl
@[simp] theorem State.setBp_causeInfo (v : Int) : (s.setBp v).causeInfo = s.causeInfo := rfl
@[simp] theorem State.setBp_result (v : Int) : (s.setBp v).result = s.result := rfl
@[simp] theorem State.setBp_inQ (v : Int) : (s.setBp v).inQ = s.inQ := rfl
@[simp] theorem State.setBp_out (v : Int) : (s.setBp v).out = s.out := rfl
@[simp] theorem State.setBp_sinkQ (v : Int) : (s.setBp v).sinkQ = s.sinkQ := rfl
@[simp] theorem State.setBp_sinkRest (v : Int) : (s.setBp v).sinkRest = s.sinkRest := rfl

@[simp] theorem State.setInQ_cfg (q : List InItem) : (s.setInQ q).cfg = s.cfg := rfl
@[simp] theorem State.setInQ_mem (q : List InItem) : (s.setInQ q).mem = s.mem := rfl
@[simp] theorem State.setInQ_ip (q : List InItem) : (s.setInQ q).ip = s.ip := rfl
@[simp] theorem State.setInQ_bp (q : List InItem) : (s.setInQ q).bp = s.bp := rfl
@[simp] theorem State.setInQ_status (q : List InItem) : (s.setInQ q).status = s.status := rfl
@[simp] theorem State.setInQ_cause (q : List InItem) : (s.setInQ q).cause = s.cause := rfl
@[simp] theorem State.setInQ_causeInfo (q : List InItem) : (s.setInQ q).causeInfo = s.causeInfo := rfl
@[simp] theorem State.setInQ_result (q : List InItem) : (s.setInQ q).result = s.result := rfl
@[simp] theorem State.setInQ_inQ (q : List InItem) : (s.setInQ q).inQ = q := rfl
@[simp] theorem State.setInQ_out (q : List InItem) : (s.setInQ q).out = s.out := rfl
@[simp] theorem State.setInQ_sinkQ (q : List InItem) : (s.setInQ q).sinkQ = s.sinkQ := rfl
@[simp] theorem State.setInQ_sinkRest (q : List InItem) : (s.setInQ q).sinkRest = s.sinkRest := rfl

@[simp] theorem State.setSinkQ_cfg (q : List SinkAnswer) : (s.setSinkQ q).cfg = s.cfg := rfl
@[simp] theorem State.setSinkQ_mem (q : List SinkAnswer) : (s.setSinkQ q).mem = s.mem := rfl
@[simp] theorem State.setSinkQ_ip (q : List SinkAnswer) : (s.setSinkQ q).ip = s.ip := rfl
@[simp] theorem State.setSinkQ_bp (q : List SinkAnswer) : (s.setSinkQ q).bp = s.bp := rfl
@[simp] theorem State.setSinkQ_status (q : List SinkAnswer) : (s.setSinkQ q).status = s.status := rfl
@[simp] theorem State.setSinkQ_cause (q : List SinkAnswer) : (s.setSinkQ q).cause = s.cause := rfl
@[simp] theorem State.setSinkQ_causeInfo (q : List SinkAnswer) : (s.setSinkQ q).causeInfo = s.causeInfo := rfl
@[simp] theorem State.setSinkQ_result (q : List SinkAnswer) : (s.setSinkQ q).result = s.result := rfl
@[simp] theorem State.setSinkQ_inQ (q : List SinkAnswer) : (s.setSinkQ q).inQ = s.inQ := rfl
@[simp] theorem State.setSinkQ_out (q : List SinkAnswer) : (s.setSinkQ q).out = s.out := rfl
@[simp] theorem State.setSinkQ_sinkQ (q : List SinkAnswer) : (s.setSinkQ q).sinkQ = q := rfl
@[simp] theorem State.setSinkQ_sinkRest (q : List SinkAnswer) : (s.setSinkQ q).sinkRest = s.sinkRest := rfl

@[simp] theorem State.emit_cfg (x : Int) : (s.emit x).cfg = s.cfg := rfl
@[simp] theorem State.emit_mem (x : Int) : (s.emit x).mem = s.mem := rfl
@[simp] theorem State.emit_ip (x : Int) : (s.emit x).ip = s.ip := rfl
@[simp] theorem State.emit_bp (x : Int) : (s.emit x).bp = s.bp := rfl
@[simp] theorem State.emit_status (x : Int) : (s.emit x).status = s.status := rfl
@[simp] theorem State.emit_cause (x : Int) : (s.emit x).cause = s.cause := rfl
@[simp] theorem State.emit_causeInfo (x : Int) : (s.emit x).causeInfo = s.causeInfo := rfl
@[simp] theorem State.emit_result (x : Int) : (s.emit x).result = s.result := rfl
@[simp] theorem State.emit_inQ (x : Int) : (s.emit x).inQ = s.inQ := rfl
@[simp] theorem State.emit_out (x : Int) : (s.emit x).out = s.out ++ [x] := rfl
@[simp] theorem State.emit_sinkQ (x : Int) : (s.emit x).sinkQ = s.sinkQ := rfl
@[simp] theorem State.emit_sinkRest (x : Int) : (s.emit x).sinkRest = s.sinkRest := rfl

@[simp] theorem State.finish_cfg (r : Int) : (s.finish r).cfg = s.cfg := rfl
@[simp] theorem State.finish_mem (r : Int) : (s.finish r).mem = s.mem := rfl
@[simp] theorem State.finish_ip (r : Int) : (s.finish r).ip = s.ip := rfl
@[simp] theorem State.finish_bp (r : Int) : (s.finish r).bp = s.bp := rfl
@[simp] theorem State.finish_status (r : Int) : (s.finish r).status = .halted := rfl
@[simp] theorem State.finish_cause (r : Int) : (s.finish r).cause = s.cause := rfl
@[simp] theorem State.finish_causeInfo (r : Int) : (s.finish r).causeInfo = s.causeInfo := rfl
@[simp] theorem State.finish_result (r : Int) : (s.finish r).result = some r := rfl
@[simp] theorem State.finish_inQ (r : Int) : (s.finish r).inQ = s.inQ := rfl
@[simp] theorem State.finish_out (r : Int) : (s.finish r).out = s.out := rfl
@[simp] theorem State.finish_sinkQ (r : Int) : (s.finish r).sinkQ = s.sinkQ := rfl
@[simp] theorem State.finish_sinkRest (r : Int) : (s.finish r).sinkRest = s.sinkRest := rfl

@[simp] theorem raise_cfg (f : Fault) : (raise f s).cfg = s.cfg := rfl
@[simp] theorem raise_mem (f : Fault) : (raise f s).mem = s.mem := rfl
@[simp] theorem raise_ip (f : Fault) : (raise f s).ip = s.ip := rfl
@[simp] theorem raise_bp (f : Fault) : (raise f s).bp = s.bp := rfl
@[simp] theorem raise_status (f : Fault) : (raise f s).status = .faulted := rfl
@[simp] theorem raise_cause (f : Fault) : (raise f s).cause = f.cause := rfl
@[simp] theorem raise_causeInfo (f : Fault) : (raise f s).causeInfo = f.info := rfl
@[simp] theorem raise_result (f : Fault) : (raise f s).result = s.result := rfl
@[simp] theorem raise_inQ (f : Fault) : (raise f s).inQ = s.inQ := rfl
@[simp] theorem raise_out (f : Fault) : (raise f s).out = s.out := rfl
@[simp] theorem raise_sinkQ (f : Fault) : (raise f s).sinkQ = s.sinkQ := rfl
@[simp] theorem raise_sinkRest (f : Fault) : (raise f s).sinkRest = s.sinkRest := rfl

@[simp] theorem complete_ok (t : State) : complete s (.ok t) = .next t := rfl
@[simp] theorem complete_error (f : Fault) : complete s (.error f) = .next (raise f s) := rfl
@[simp] theorem atRest_eq : atRest s = .next s := rfl

/-- No fault records the cause `None` (R220). -/
theorem Fault.cause_ne_none (f : Fault) : f.cause ≠ .none := by cases f <;> simp [Fault.cause]

end Sys2Proof.Machine
end

