-- ==== Sys2Proof/Laws/Ops.lean ====
section
/-! SUPPORT. One lemma per shared operation that says what it answers and when, and `exec_cases`, which says once what an
instruction can do. Proofs cite these and do not unfold the operations. -/

namespace Sys2Proof.Machine

/-! ### Sequencing of checks -/

theorem except_bind_eq_ok {α β : Type} {x : Except Fault α} {f : α → Except Fault β} {b : β} :
    (x >>= f) = .ok b ↔ ∃ a, x = .ok a ∧ f a = .ok b := by
  cases x <;> simp [bind, Except.bind]

theorem except_bind_eq_error {α β : Type} {x : Except Fault α} {f : α → Except Fault β} {e : Fault} :
    (x >>= f) = .error e ↔ x = .error e ∨ ∃ a, x = .ok a ∧ f a = .error e := by
  cases x <;> simp [bind, Except.bind]

theorem complete_eq_next {s t : State} {x : Except Fault State} :
    complete s x = .next t ↔ x = .ok t ∨ ∃ e, x = .error e ∧ t = raise e s := by
  cases x <;> simp [complete, eq_comm]

/-! ### Integers and the advance of `ip` -/

theorem narrow_eq_ok {cfg : Config} {v w : Int} : narrow cfg v = .ok w ↔ fits cfg.width v = true ∧ w = v := by
  cases h : fits cfg.width v <;> simp [narrow, h, eq_comm]

theorem narrow_eq_error {cfg : Config} {v : Int} {e : Fault} :
    narrow cfg v = .error e ↔ fits cfg.width v = false ∧ e = .overflow := by
  cases h : fits cfg.width v <;> simp [narrow, h, eq_comm]

theorem advance_eq_ok {s : State} {n : Nat} {w : Int} :
    advance s n = .ok w ↔ fits s.cfg.width (s.ip + n) = true ∧ w = s.ip + n := narrow_eq_ok

theorem advance_eq_error {s : State} {n : Nat} {e : Fault} :
    advance s n = .error e ↔ fits s.cfg.width (s.ip + n) = false ∧ e = .overflow := narrow_eq_error

/-! ### The operand resolver -/

theorem memRead_eq_error {m : Memory} {a : Int} {e : Fault} :
    memRead m a = .error e ↔ a < 0 ∧ e = .negativeAddress a := by
  by_cases h : a < 0 <;> simp [memRead, h, eq_comm]

theorem checkDestMode_eq_ok {v : Int} {o : Operand} {u : Unit} :
    checkDestMode v o = .ok u ↔ o.mode ≠ .immediate := by
  cases h : o.mode <;> simp [checkDestMode, h]

theorem checkDestMode_eq_error {v : Int} {o : Operand} {e : Fault} :
    checkDestMode v o = .error e ↔ o.mode = .immediate ∧ e = .addressingError v := by
  cases h : o.mode <;> simp [checkDestMode, h, eq_comm]

theorem checkNonneg_eq_ok {a b : Int} : checkNonneg a = .ok b ↔ 0 ≤ a ∧ b = a := by
  by_cases h : a < 0
  · simp [checkNonneg, h]
  · simp [checkNonneg, h, eq_comm, Int.not_lt.mp h]

theorem checkNonneg_eq_error {a : Int} {e : Fault} : checkNonneg a = .error e ↔ a < 0 ∧ e = .negativeAddress a := by
  by_cases h : a < 0 <;> simp [checkNonneg, h, eq_comm]

/-- A resolved destination is a cell: not Immediate, not negative, and it is the address its mode names (R132). -/
theorem resolveAddress_eq_ok {v : Int} {s : State} {o : Operand} {d : Int} :
    resolveAddress v s o = .ok d ↔
      0 ≤ d ∧ ((o.mode = .address ∧ d = o.lit) ∨
        (o.mode = .relative ∧ d = s.bp + o.lit ∧ fits s.cfg.width d = true)) := by
  cases hm : o.mode
  · simp only [resolveAddress, hm, checkNonneg_eq_ok, reduceCtorEq, false_and, true_and, or_false]
    constructor
    all_goals
      rintro ⟨h, rfl⟩
      exact ⟨h, rfl⟩
  · simp [resolveAddress, hm]
  · simp only [resolveAddress, hm, except_bind_eq_ok, relativeAddress, narrow_eq_ok, checkNonneg_eq_ok, reduceCtorEq,
      false_and, true_and, false_or]
    constructor
    · rintro ⟨a, ⟨hf, rfl⟩, h, rfl⟩
      exact ⟨h, rfl, hf⟩
    · rintro ⟨h, rfl, hf⟩
      exact ⟨_, ⟨hf, rfl⟩, h, rfl⟩

theorem resolveAddress_nonneg {v : Int} {s : State} {o : Operand} {d : Int} (h : resolveAddress v s o = .ok d) : 0 ≤ d :=
  (resolveAddress_eq_ok.mp h).1

/-- The faults of a destination (R132). -/
theorem resolveAddress_eq_error {v : Int} {s : State} {o : Operand} {e : Fault} :
    resolveAddress v s o = .error e ↔
      (o.mode = .immediate ∧ e = .addressingError v) ∨
      (o.mode = .address ∧ o.lit < 0 ∧ e = .negativeAddress o.lit) ∨
      (o.mode = .relative ∧ fits s.cfg.width (s.bp + o.lit) = false ∧ e = .overflow) ∨
      (o.mode = .relative ∧ fits s.cfg.width (s.bp + o.lit) = true ∧ s.bp + o.lit < 0 ∧
        e = .negativeAddress (s.bp + o.lit)) := by
  cases hm : o.mode
  · simp [resolveAddress, hm, checkNonneg_eq_error]
  · simp only [resolveAddress, hm, Except.error.injEq, reduceCtorEq, false_and, true_and, or_false]
    exact eq_comm
  · simp only [resolveAddress, hm, except_bind_eq_error, relativeAddress, narrow_eq_ok, narrow_eq_error,
      checkNonneg_eq_error]
    simp

/-- The faults of a source (R131). -/
theorem resolveValue_eq_error {s : State} {o : Operand} {e : Fault} :
    resolveValue s o = .error e ↔
      (o.mode = .address ∧ o.lit < 0 ∧ e = .negativeAddress o.lit) ∨
      (o.mode = .relative ∧ fits s.cfg.width (s.bp + o.lit) = false ∧ e = .overflow) ∨
      (o.mode = .relative ∧ fits s.cfg.width (s.bp + o.lit) = true ∧ s.bp + o.lit < 0 ∧
        e = .negativeAddress (s.bp + o.lit)) := by
  cases hm : o.mode
  · simp [resolveValue, hm, memRead_eq_error]
  · simp [resolveValue, hm]
  · simp only [resolveValue, hm, except_bind_eq_error, relativeAddress, narrow_eq_ok, narrow_eq_error,
      memRead_eq_error]
    simp

/-- A resolved source is its literal or the content of a cell (R131). -/
theorem resolveValue_ok_cases {s : State} {o : Operand} {x : Int} (h : resolveValue s o = .ok x) :
    x = o.lit ∨ ∃ a, x = readCell s.mem a := by
  unfold resolveValue at h
  split at h
  · exact .inl (by simpa [eq_comm] using h)
  · exact .inr ⟨_, (memRead_eq_ok.mp h).2⟩
  · obtain ⟨a, -, h⟩ := except_bind_eq_ok.mp h
    exact .inr ⟨_, (memRead_eq_ok.mp h).2⟩

theorem checkCapacity_eq_ok {cfg : Config} {a b : Int} :
    checkCapacity cfg a = .ok b ↔ overCapacity cfg a.toNat = false ∧ b = a := by
  cases h : overCapacity cfg a.toNat <;> simp [checkCapacity, h, eq_comm]

theorem checkCapacity_eq_error {cfg : Config} {a : Int} {e : Fault} :
    checkCapacity cfg a = .error e ↔ overCapacity cfg a.toNat = true ∧ e = .outOfMemory a := by
  cases h : overCapacity cfg a.toNat <;> simp [checkCapacity, h, eq_comm]

theorem resolveDest_eq_ok {v : Int} {s : State} {o : Operand} {d : Int} :
    resolveDest v s o = .ok d ↔ resolveAddress v s o = .ok d ∧ overCapacity s.cfg d.toNat = false := by
  unfold resolveDest
  rw [except_bind_eq_ok]
  constructor
  · rintro ⟨a, ha, h⟩
    obtain ⟨hc, rfl⟩ := checkCapacity_eq_ok.mp h
    exact ⟨ha, hc⟩
  · rintro ⟨ha, hc⟩
    exact ⟨d, ha, checkCapacity_eq_ok.mpr ⟨hc, rfl⟩⟩

theorem resolveDest_eq_error {v : Int} {s : State} {o : Operand} {e : Fault} :
    resolveDest v s o = .error e ↔
      resolveAddress v s o = .error e ∨
      ∃ d, resolveAddress v s o = .ok d ∧ overCapacity s.cfg d.toNat = true ∧ e = .outOfMemory d := by
  simp only [resolveDest, except_bind_eq_error, checkCapacity_eq_error]

/-- A write to a resolved destination cannot fail: its checks have been made (R132, R54). -/
theorem memWrite_resolved {v : Int} {s : State} {o : Operand} {d : Int} (h : resolveDest v s o = .ok d) (x : Int) :
    memWrite s.cfg s.mem d x = .ok (storeCell s.cfg s.mem d.toNat x) := by
  obtain ⟨ha, hc⟩ := resolveDest_eq_ok.mp h
  exact memWrite_eq_ok.mpr ⟨resolveAddress_nonneg ha, hc, rfl⟩

/-! ### The shared effects of the instructions -/

/-- What a format F3 kind does when it completes. -/
theorem binaryToCell_eq_ok {op : Int → Int → Except Fault Int} {k : Kind} {o1 o2 o3 : Operand} {s t : State} :
    binaryToCell op k o1 o2 o3 s = .ok t ↔
      ∃ a b d v, resolveValue s o1 = .ok a ∧ resolveValue s o2 = .ok b ∧
        resolveAddress (encodeOpcode ⟨k, o1.mode, o2.mode, o3.mode⟩) s o3 = .ok d ∧
        overCapacity s.cfg d.toNat = false ∧ op a b = .ok v ∧ fits s.cfg.width (s.ip + 4) = true ∧
        t = (s.setMem (storeCell s.cfg s.mem d.toNat v)).setIp (s.ip + 4) := by
  simp only [binaryToCell, except_bind_eq_ok, checkDestMode_eq_ok, advance_eq_ok, pure, Except.pure]
  constructor
  · rintro ⟨-, -, a, ha, b, hb, d, hd, v, hv, n, ⟨hf, rfl⟩, m, hm, ht⟩
    rw [memWrite_resolved hd] at hm
    cases hm
    cases ht
    obtain ⟨hd, hc⟩ := resolveDest_eq_ok.mp hd
    exact ⟨a, b, d, v, ha, hb, hd, hc, hv, hf, rfl⟩
  · rintro ⟨a, b, d, v, ha, hb, hd, hc, hv, hf, rfl⟩
    have hd' := resolveDest_eq_ok.mpr ⟨hd, hc⟩
    refine ⟨(), ?_, a, ha, b, hb, d, hd', v, hv, _, ⟨hf, rfl⟩, _, memWrite_resolved hd' v, rfl⟩
    rcases resolveAddress_eq_ok.mp hd with ⟨-, ⟨h, -⟩ | ⟨h, -⟩⟩ <;> simp [h]

/-- How a format F3 kind faults, its checks in order (R228). -/
theorem binaryToCell_eq_error {op : Int → Int → Except Fault Int} {k : Kind} {o1 o2 o3 : Operand} {s : State}
    {e : Fault} :
    binaryToCell op k o1 o2 o3 s = .error e ↔
      (o3.mode = .immediate ∧ e = .addressingError (encodeOpcode ⟨k, o1.mode, o2.mode, o3.mode⟩)) ∨
      (o3.mode ≠ .immediate ∧
        (resolveValue s o1 = .error e ∨ ∃ a, resolveValue s o1 = .ok a ∧
          (resolveValue s o2 = .error e ∨ ∃ b, resolveValue s o2 = .ok b ∧
            (resolveDest (encodeOpcode ⟨k, o1.mode, o2.mode, o3.mode⟩) s o3 = .error e ∨
              ∃ d, resolveDest (encodeOpcode ⟨k, o1.mode, o2.mode, o3.mode⟩) s o3 = .ok d ∧
              (op a b = .error e ∨ ∃ v, op a b = .ok v ∧
                (fits s.cfg.width (s.ip + 4) = false ∧ e = .overflow)))))) := by
  simp only [binaryToCell, except_bind_eq_error, checkDestMode_eq_ok, checkDestMode_eq_error, advance_eq_ok,
    advance_eq_error, pure, Except.pure, Nat.cast_ofNat]
  constructor
  · rintro (h | ⟨-, hm, h | ⟨a, ha, h | ⟨b, hb, h | ⟨d, hd, h | ⟨v, hv, h | ⟨n, -, h | ⟨m, -, h⟩⟩⟩⟩⟩⟩⟩)
    · exact .inl h
    · exact .inr ⟨hm, .inl h⟩
    · exact .inr ⟨hm, .inr ⟨a, ha, .inl h⟩⟩
    · exact .inr ⟨hm, .inr ⟨a, ha, .inr ⟨b, hb, .inl h⟩⟩⟩
    · exact .inr ⟨hm, .inr ⟨a, ha, .inr ⟨b, hb, .inr ⟨d, hd, .inl h⟩⟩⟩⟩
    · exact .inr ⟨hm, .inr ⟨a, ha, .inr ⟨b, hb, .inr ⟨d, hd, .inr ⟨v, hv, h⟩⟩⟩⟩⟩
    · rw [memWrite_resolved hd] at h
      cases h
    · cases h
  · rintro (h | ⟨hm, h | ⟨a, ha, h | ⟨b, hb, h | ⟨d, hd, h | ⟨v, hv, h⟩⟩⟩⟩⟩)
    · exact .inl h
    · exact .inr ⟨(), hm, .inl h⟩
    · exact .inr ⟨(), hm, .inr ⟨a, ha, .inl h⟩⟩
    · exact .inr ⟨(), hm, .inr ⟨a, ha, .inr ⟨b, hb, .inl h⟩⟩⟩
    · exact .inr ⟨(), hm, .inr ⟨a, ha, .inr ⟨b, hb, .inr ⟨d, hd, .inl h⟩⟩⟩⟩
    · exact .inr ⟨(), hm, .inr ⟨a, ha, .inr ⟨b, hb, .inr ⟨d, hd, .inr ⟨v, hv, .inl h⟩⟩⟩⟩⟩

/-- What IN settles before the channel. -/
theorem inputTarget_eq_ok {v : Int} {o1 : Operand} {s : State} {d n : Int} :
    inputTarget v o1 s = .ok (d, n) ↔
      resolveAddress v s o1 = .ok d ∧ overCapacity s.cfg d.toNat = false ∧
      fits s.cfg.width (s.ip + 2) = true ∧ n = s.ip + 2 := by
  simp only [inputTarget, except_bind_eq_ok, checkDestMode_eq_ok, resolveDest_eq_ok, advance_eq_ok, pure, Except.pure,
    Except.ok.injEq, Prod.mk.injEq]
  constructor
  · rintro ⟨-, -, d', ⟨hd, hc⟩, n', ⟨hf, rfl⟩, rfl, rfl⟩
    exact ⟨hd, hc, hf, rfl⟩
  · rintro ⟨hd, hc, hf, rfl⟩
    refine ⟨(), ?_, d, ⟨hd, hc⟩, _, ⟨hf, rfl⟩, rfl, rfl⟩
    rcases resolveAddress_eq_ok.mp hd with ⟨-, ⟨h, -⟩ | ⟨h, -⟩⟩ <;> simp [h]

theorem inputTarget_eq_error {v : Int} {o1 : Operand} {s : State} {e : Fault} :
    inputTarget v o1 s = .error e ↔
      resolveAddress v s o1 = .error e ∨
      ∃ d, resolveAddress v s o1 = .ok d ∧
        ((overCapacity s.cfg d.toNat = true ∧ e = .outOfMemory d) ∨
          (overCapacity s.cfg d.toNat = false ∧ fits s.cfg.width (s.ip + 2) = false ∧ e = .overflow)) := by
  simp only [inputTarget, except_bind_eq_error, checkDestMode_eq_ok, checkDestMode_eq_error, resolveDest_eq_ok,
    resolveDest_eq_error, advance_eq_ok, advance_eq_error, pure, Except.pure, reduceCtorEq, and_false, exists_false,
    or_false]
  constructor
  · rintro (⟨hm, he⟩ | ⟨-, -, (h | ⟨d, hd, hc, he⟩) | ⟨d, ⟨hd, hc⟩, hf, he⟩⟩)
    · exact .inl (resolveAddress_eq_error.mpr (.inl ⟨hm, he⟩))
    · exact .inl h
    · exact .inr ⟨d, hd, .inl ⟨hc, he⟩⟩
    · exact .inr ⟨d, hd, .inr ⟨hc, hf, he⟩⟩
  · intro h
    by_cases hm : o1.mode = .immediate
    · refine .inl ⟨hm, ?_⟩
      rcases h with h | ⟨d, hd, -⟩
      · simpa [resolveAddress, hm, eq_comm] using h
      · simp [resolveAddress, hm] at hd
    · refine .inr ⟨(), hm, ?_⟩
      rcases h with h | ⟨d, hd, ⟨hc, he⟩ | ⟨hc, hf, he⟩⟩
      · exact .inl (.inl h)
      · exact .inl (.inr ⟨d, hd, hc, he⟩)
      · exact .inr ⟨d, ⟨hd, hc⟩, hf, he⟩

/-- What OUT settles before it offers. -/
theorem outputOffer_eq_ok {o1 : Operand} {s : State} {x n : Int} :
    outputOffer o1 s = .ok (x, n) ↔
      resolveValue s o1 = .ok x ∧ fits s.cfg.width (s.ip + 2) = true ∧ n = s.ip + 2 := by
  simp only [outputOffer, except_bind_eq_ok, advance_eq_ok, pure, Except.pure, Except.ok.injEq, Prod.mk.injEq]
  constructor
  · rintro ⟨x', hx, n', ⟨hf, rfl⟩, rfl, rfl⟩
    exact ⟨hx, hf, rfl⟩
  · rintro ⟨hx, hf, rfl⟩
    exact ⟨x, hx, _, ⟨hf, rfl⟩, rfl, rfl⟩

theorem outputOffer_eq_error {o1 : Operand} {s : State} {e : Fault} :
    outputOffer o1 s = .error e ↔
      resolveValue s o1 = .error e ∨
      ∃ x, resolveValue s o1 = .ok x ∧ fits s.cfg.width (s.ip + 2) = false ∧ e = .overflow := by
  simp only [outputOffer, except_bind_eq_error, advance_eq_error, pure, Except.pure, reduceCtorEq, and_false,
    exists_false, or_false, Nat.cast_ofNat]

/-- The sink's next answer is the head of the given ones, or its standing answer (log 5). -/
theorem nextAnswer_eq_some {s : State} {a : SinkAnswer} {rest : List SinkAnswer} :
    nextAnswer s = some (a, rest) ↔
      s.sinkQ = a :: rest ∨ (s.sinkQ = [] ∧ s.sinkRest = some a ∧ rest = []) := by
  unfold nextAnswer
  split
  · simp_all
  · split <;> simp_all [eq_comm]

theorem fallThrough_eq_ok {s t : State} :
    fallThrough s = .ok t ↔ fits s.cfg.width (s.ip + 3) = true ∧ t = s.setIp (s.ip + 3) := by
  simp only [fallThrough, except_bind_eq_ok, advance_eq_ok, pure, Except.pure, Except.ok.injEq]
  constructor
  · rintro ⟨n, ⟨hf, rfl⟩, rfl⟩
    exact ⟨hf, rfl⟩
  · rintro ⟨hf, rfl⟩
    exact ⟨_, ⟨hf, rfl⟩, rfl⟩

theorem fallThrough_eq_error {s : State} {e : Fault} :
    fallThrough s = .error e ↔ fits s.cfg.width (s.ip + 3) = false ∧ e = .overflow := by
  simp only [fallThrough, except_bind_eq_error, advance_eq_error, pure, Except.pure, reduceCtorEq, and_false,
    exists_false, or_false, Nat.cast_ofNat]

/-- What a jump does when it completes: it stores a value of `ip` (R190, R191). -/
theorem jump_ok {cond : Int → Bool} {o1 o2 : Operand} {s t : State} (h : jump cond o1 o2 s = .ok t) :
    ∃ c, resolveValue s o1 = .ok c ∧
      ((cond c = true ∧ ∃ n, resolveValue s o2 = .ok n ∧ t = s.setIp n) ∨
        (cond c = false ∧ fits s.cfg.width (s.ip + 3) = true ∧ t = s.setIp (s.ip + 3))) := by
  obtain ⟨c, hc, h⟩ := except_bind_eq_ok.mp h
  refine ⟨c, hc, ?_⟩
  split at h
  · next hl => exact .inr ⟨by simp_all, fallThrough_eq_ok.mp h⟩
  · obtain ⟨n, hn, h⟩ := except_bind_eq_ok.mp h
    split at h
    · next ht => exact .inl ⟨ht, n, hn, by simpa [pure, Except.pure, eq_comm] using h⟩
    · next ht => exact .inr ⟨by simpa using ht, fallThrough_eq_ok.mp h⟩

/-- How a jump faults: on an operand, or on the fall-through (R190 to R192, R195). -/
theorem jump_error {cond : Int → Bool} {o1 o2 : Operand} {s : State} {e : Fault}
    (h : jump cond o1 o2 s = .error e) :
    resolveValue s o1 = .error e ∨ resolveValue s o2 = .error e ∨ e = .overflow := by
  rcases except_bind_eq_error.mp h with h | ⟨c, -, h⟩
  · exact .inl h
  · split at h
    · exact .inr (.inr (fallThrough_eq_error.mp h).2)
    · rcases except_bind_eq_error.mp h with h | ⟨n, -, h⟩
      · exact .inr (.inl h)
      · split at h
        · cases h
        · exact .inr (.inr (fallThrough_eq_error.mp h).2)

theorem adjustBase_eq_ok {o1 : Operand} {s t : State} :
    adjustBase o1 s = .ok t ↔
      ∃ x, resolveValue s o1 = .ok x ∧ fits s.cfg.width (s.bp + x) = true ∧
        fits s.cfg.width (s.ip + 2) = true ∧ t = (s.setBp (s.bp + x)).setIp (s.ip + 2) := by
  simp only [adjustBase, except_bind_eq_ok, advance_eq_ok, narrow_eq_ok, pure, Except.pure, Except.ok.injEq]
  constructor
  · rintro ⟨x, hx, b, ⟨hb, rfl⟩, n, ⟨hf, rfl⟩, rfl⟩
    exact ⟨x, hx, hb, hf, rfl⟩
  · rintro ⟨x, hx, hb, hf, rfl⟩
    exact ⟨x, hx, _, ⟨hb, rfl⟩, _, ⟨hf, rfl⟩, rfl⟩

theorem adjustBase_eq_error {o1 : Operand} {s : State} {e : Fault} :
    adjustBase o1 s = .error e ↔
      resolveValue s o1 = .error e ∨
      ∃ x, resolveValue s o1 = .ok x ∧ e = .overflow ∧
        (fits s.cfg.width (s.bp + x) = false ∨ fits s.cfg.width (s.ip + 2) = false) := by
  simp only [adjustBase, except_bind_eq_error, advance_eq_ok, advance_eq_error, narrow_eq_ok, narrow_eq_error, pure,
    Except.pure, reduceCtorEq, and_false, exists_false, or_false, Nat.cast_ofNat]
  constructor
  · rintro (h | ⟨x, hx, ⟨hb, he⟩ | ⟨b, -, hf, he⟩⟩)
    · exact .inl h
    · exact .inr ⟨x, hx, he, .inl hb⟩
    · exact .inr ⟨x, hx, he, .inr hf⟩
  · rintro (h | ⟨x, hx, he, h⟩)
    · exact .inl h
    · refine .inr ⟨x, hx, ?_⟩
      cases hb : fits s.cfg.width (s.bp + x)
      · exact .inl ⟨rfl, he⟩
      · exact .inr ⟨_, ⟨rfl, rfl⟩, by simpa [hb] using h, he⟩

theorem ipAfterHalt_cases {s : State} :
    (ipAfterHalt s = .ok s.ip ∧ s.cfg.haltAdvancesIp = false) ∨
    (ipAfterHalt s = .ok (s.ip + 1) ∧ s.cfg.haltAdvancesIp = true ∧ fits s.cfg.width (s.ip + 1) = true) ∨
    (ipAfterHalt s = .error .overflow ∧ s.cfg.haltAdvancesIp = true ∧ fits s.cfg.width (s.ip + 1) = false) := by
  unfold ipAfterHalt
  cases h : s.cfg.haltAdvancesIp
  · exact .inl ⟨rfl, rfl⟩
  · cases hf : fits s.cfg.width (s.ip + 1)
    · exact .inr (.inr ⟨advance_eq_error.mpr ⟨hf, rfl⟩, rfl, rfl⟩)
    · exact .inr (.inl ⟨advance_eq_ok.mpr ⟨hf, rfl⟩, rfl, rfl⟩)

/-- What Halt does (R211): it completes unless its own advance of `ip` overflows. -/
theorem halt_cases {s : State} :
    (∃ n, halt s = .ok ((s.finish (readCell s.mem 0)).setIp n) ∧ ipAfterHalt s = .ok n) ∨
    (halt s = .error .overflow ∧ ipAfterHalt s = .error .overflow) := by
  have hr : memRead s.mem 0 = .ok (readCell s.mem 0) := memRead_eq_ok.mpr ⟨Int.le_refl _, rfl⟩
  rcases ipAfterHalt_cases (s := s) with ⟨h, -⟩ | ⟨h, -⟩ | ⟨h, -⟩
  · exact .inl ⟨_, by simp [halt, h, hr, bind, Except.bind, pure, Except.pure], h⟩
  · exact .inl ⟨_, by simp [halt, h, hr, bind, Except.bind, pure, Except.pure], h⟩
  · exact .inr ⟨by simp [halt, h, bind, Except.bind], h⟩

/-! ### What an instruction can do -/

/-- Where the integer that a storing instruction writes comes from. -/
inductive Stored (s : State) (v : Int) (q : List InItem) : Prop where
  /-- computed, and checked against the width: the queue is as before -/
  | computed (h : fits s.cfg.width v = true) (hq : q = s.inQ)
  /-- the result of a test: the queue is as before -/
  | tested (h : v = 0 ∨ v = 1) (hq : q = s.inQ)
  /-- the item taken from the head of the queue -/
  | taken (h : s.inQ = .value v :: q)

/-- The integers a fault of an operand or of a literal can report. -/
inductive Reported (i : Instr) (s : State) : Fault → Prop where
  | addressing (o : Operand) (h : i.dest? = some o) (hm : o.mode = .immediate) :
      Reported i s (.addressingError (encodeOpcode i.opCode))
  | literal (a : Int) (h : a ∈ i.literals) : Reported i s (.negativeAddress a)
  | relative (a : Int) (h : fits s.cfg.width a = true) : Reported i s (.negativeAddress a)
  | overflow : Reported i s .overflow
  | outOfMemory (o : Operand) (d : Int) (h : i.dest? = some o)
      (hd : resolveAddress (encodeOpcode i.opCode) s o = .ok d) (ho : o.lit ∈ i.literals) :
      Reported i s (.outOfMemory d)

/-- Everything executing an instruction can do. -/
inductive Effect (i : Instr) (s : State) : State → Prop where
  /-- a fault before any channel is touched, in the unchanged state -/
  | faulted (f : Fault) (h : Reported i s f) : Effect i s (raise f s)
  /-- IN takes a line that did not parse -/
  | unparseable (o1 : Operand) (u2 u3 : Mode) (q : List InItem) (hi : i = .input o1 u2 u3)
      (hq : s.inQ = .unparseable :: q) : Effect i s (raise .inputParseError (s.setInQ q))
  /-- IN takes a failure of the transport -/
  | transportFailed (o1 : Operand) (u2 u3 : Mode) (q : List InItem) (hi : i = .input o1 u2 u3)
      (hq : s.inQ = .transportFailed :: q) : Effect i s (raise (.ioError .inputSide) (s.setInQ q))
  /-- OUT's offer is refused -/
  | sinkFailed (o1 : Operand) (u2 u3 : Mode) (q : List SinkAnswer) (hi : i = .output o1 u2 u3)
      (hq : nextAnswer s = some (.sinkFailed, q)) : Effect i s (raise (.ioError .outputSide) (s.setSinkQ q))
  /-- IN holds on the empty queue -/
  | heldForInput (o1 : Operand) (u2 u3 : Mode) (d n : Int) (hi : i = .input o1 u2 u3)
      (ht : inputTarget (encodeOpcode i.opCode) o1 s = .ok (d, n)) (hq : s.inQ = []) : Effect i s s
  /-- OUT holds until the sink answers -/
  | heldForOutput (o1 : Operand) (u2 u3 : Mode) (x n : Int) (hi : i = .output o1 u2 u3)
      (ht : outputOffer o1 s = .ok (x, n)) (hq : nextAnswer s = none) : Effect i s s
  /-- ADD, MUL, LT, EQ, IN store one integer -/
  | stored (o : Operand) (d v : Int) (q : List InItem) (hd : i.dest? = some o)
      (ha : resolveAddress (encodeOpcode i.opCode) s o = .ok d) (hc : overCapacity s.cfg d.toNat = false)
      (hv : Stored s v q) (hin : q = s.inQ ∨ ∃ o1 u2 u3, i = .input o1 u2 u3)
      (hf : fits s.cfg.width (s.ip + i.opCode.kind.width) = true) :
      Effect i s (((s.setInQ q).setMem (storeCell s.cfg s.mem d.toNat v)).setIp (s.ip + i.opCode.kind.width))
  /-- OUT's value is accepted -/
  | emitted (o1 : Operand) (u2 u3 : Mode) (x n : Int) (q : List SinkAnswer) (hi : i = .output o1 u2 u3)
      (ht : outputOffer o1 s = .ok (x, n)) (hq : nextAnswer s = some (.accepted, q)) :
      Effect i s (((s.setSinkQ q).emit x).setIp n)
  /-- JT or JF writes `ip` -/
  | jumped (o1 o2 : Operand) (u3 : Mode) (n : Int) (hi : i = .jumpIfTrue o1 o2 u3 ∨ i = .jumpIfFalse o1 o2 u3)
      (hn : fits s.cfg.width n = true ∨ resolveValue s o2 = .ok n) : Effect i s (s.setIp n)
  /-- ARB adds to `bp` -/
  | adjusted (o1 : Operand) (u2 u3 : Mode) (x : Int) (hi : i = .adjustBase o1 u2 u3)
      (hb : fits s.cfg.width (s.bp + x) = true) (hf : fits s.cfg.width (s.ip + 2) = true) :
      Effect i s ((s.setBp (s.bp + x)).setIp (s.ip + 2))
  /-- HLT ends the run -/
  | halted (u1 u2 u3 : Mode) (n : Int) (hi : i = .halt u1 u2 u3) (hn : n = s.ip ∨ fits s.cfg.width n = true) :
      Effect i s ((s.finish (readCell s.mem 0)).setIp n)

theorem reported_of_value {i : Instr} {s : State} {o : Operand} {e : Fault} (ho : o.lit ∈ i.literals)
    (h : resolveValue s o = .error e) : Reported i s e := by
  rcases resolveValue_eq_error.mp h with ⟨-, -, rfl⟩ | ⟨-, -, rfl⟩ | ⟨-, hf, -, rfl⟩
  · exact .literal _ ho
  · exact .overflow
  · exact .relative _ hf

theorem reported_of_address {i : Instr} {s : State} {o : Operand} {e : Fault} (hd : i.dest? = some o)
    (ho : o.lit ∈ i.literals) (h : resolveAddress (encodeOpcode i.opCode) s o = .error e) : Reported i s e := by
  rcases resolveAddress_eq_error.mp h with ⟨hm, rfl⟩ | ⟨-, -, rfl⟩ | ⟨-, -, rfl⟩ | ⟨-, hf, -, rfl⟩
  · exact .addressing o hd hm
  · exact .literal _ ho
  · exact .overflow
  · exact .relative _ hf

/-- The two outcomes of a format F3 kind, as effects. -/
theorem binary_effect {op : Int → Int → Except Fault Int} {k : Kind} {o1 o2 o3 : Operand} {i : Instr} {s t : State}
    (hc : i.opCode = ⟨k, o1.mode, o2.mode, o3.mode⟩) (hl : i.literals = [o1.lit, o2.lit, o3.lit])
    (hd : i.dest? = some o3) (hw : k.width = 4)
    (hok : ∀ a b v, op a b = .ok v → Stored s v s.inQ) (herr : ∀ a b e, op a b = .error e → e = .overflow)
    (h : complete s (binaryToCell op k o1 o2 o3 s) = .next t) : Effect i s t := by
  rcases complete_eq_next.mp h with h | ⟨e, he, rfl⟩
  · obtain ⟨a, b, d, v, -, -, ha, hcap, hv, hf, rfl⟩ := binaryToCell_eq_ok.mp h
    have hw' : i.opCode.kind.width = 4 := by rw [hc]; exact hw
    have := Effect.stored (i := i) (s := s) o3 d v s.inQ hd (by rw [hc]; exact ha) hcap (hok a b v hv) (.inl rfl)
      (by rw [hw']; exact_mod_cast hf)
    rw [hw'] at this
    exact_mod_cast this
  · refine .faulted e ?_
    have m1 : o1.lit ∈ i.literals := by simp [hl]
    have m2 : o2.lit ∈ i.literals := by simp [hl]
    have m3 : o3.lit ∈ i.literals := by simp [hl]
    rcases binaryToCell_eq_error.mp he with ⟨hm, rfl⟩ | ⟨-, h | ⟨a, -, h | ⟨b, -, h | ⟨d, -, h | ⟨v, -, -, rfl⟩⟩⟩⟩⟩
    · rw [← hc]
      exact .addressing o3 hd hm
    · exact reported_of_value m1 h
    · exact reported_of_value m2 h
    · rw [← hc] at h
      rcases resolveDest_eq_error.mp h with h | ⟨d, hd', -, rfl⟩
      · exact reported_of_address hd m3 h
      · exact .outOfMemory o3 d hd hd' m3
    · obtain rfl := herr a b e h
      exact .overflow
    · exact .overflow

/-- Executing an instruction does one of the things `Effect` lists, and nothing else. -/
theorem exec_cases {i : Instr} {s t : State} (h : exec i s = .next t) : Effect i s t := by
  have hnarrow : ∀ (v w : Int), narrow s.cfg v = .ok w → Stored s w s.inQ := fun v w h => by
    obtain ⟨hf, rfl⟩ := narrow_eq_ok.mp h
    exact .computed hf rfl
  cases i with
  | add o1 o2 o3 =>
    exact binary_effect (k := .add) rfl rfl rfl rfl (fun _ _ _ => hnarrow _ _) (fun _ _ _ h => (narrow_eq_error.mp h).2) h
  | multiply o1 o2 o3 =>
    exact binary_effect (k := .multiply) rfl rfl rfl rfl (fun _ _ _ => hnarrow _ _) (fun _ _ _ h => (narrow_eq_error.mp h).2) h
  | testLessThan o1 o2 o3 =>
    refine binary_effect (k := .testLessThan) rfl rfl rfl rfl (fun a b v h => .tested ?_ rfl) (fun _ _ _ h => by cases h) h
    cases h
    unfold testLess
    split <;> simp
  | testEqual o1 o2 o3 =>
    refine binary_effect (k := .testEqual) rfl rfl rfl rfl (fun a b v h => .tested ?_ rfl) (fun _ _ _ h => by cases h) h
    cases h
    unfold testEq
    split <;> simp
  | input o1 u2 u3 =>
    simp only [exec, execInput] at h
    split at h
    · next f hf =>
      cases h
      refine .faulted f ?_
      rcases inputTarget_eq_error.mp hf with h | ⟨d, hd, ⟨-, rfl⟩ | ⟨-, -, rfl⟩⟩
      · exact reported_of_address rfl (by simp [Instr.literals]) h
      · exact .outOfMemory o1 d rfl hd (by simp [Instr.literals])
      · exact .overflow
    · next d n ht =>
      obtain ⟨hd, hc, hf, rfl⟩ := inputTarget_eq_ok.mp ht
      split at h
      · next hq =>
        cases h
        exact .heldForInput o1 u2 u3 d _ rfl ht hq
      · next item q hq =>
        cases item with
        | value x =>
          have hw : memWrite s.cfg s.mem d x = .ok (storeCell s.cfg s.mem d.toNat x) :=
            memWrite_resolved (resolveDest_eq_ok.mpr ⟨hd, hc⟩) x
          simp only [takeItem, State.setInQ_cfg, State.setInQ_mem, hw, bind, Except.bind, pure, Except.pure,
            complete_ok] at h
          cases h
          exact .stored o1 d x q rfl hd hc (.taken hq) (.inr ⟨o1, u2, u3, rfl⟩) hf
        | unparseable =>
          cases h
          exact .unparseable o1 u2 u3 q rfl hq
        | transportFailed =>
          cases h
          exact .transportFailed o1 u2 u3 q rfl hq
  | output o1 u2 u3 =>
    simp only [exec, execOutput] at h
    split at h
    · next f hf =>
      cases h
      refine .faulted f ?_
      rcases outputOffer_eq_error.mp hf with h | ⟨x, -, -, rfl⟩
      · exact reported_of_value (by simp [Instr.literals]) h
      · exact .overflow
    · next x n ht =>
      split at h
      · next hq =>
        cases h
        exact .heldForOutput o1 u2 u3 x n rfl ht hq
      · next q hq =>
        cases h
        exact .emitted o1 u2 u3 x n q rfl ht hq
      · next q hq =>
        cases h
        exact .sinkFailed o1 u2 u3 q rfl hq
  | jumpIfTrue o1 o2 u3 =>
    rcases complete_eq_next.mp h with h | ⟨e, he, rfl⟩
    · obtain ⟨c, -, ⟨-, n, hn, rfl⟩ | ⟨-, hf, rfl⟩⟩ := jump_ok h
      · exact .jumped o1 o2 u3 n (.inl rfl) (.inr hn)
      · exact .jumped o1 o2 u3 _ (.inl rfl) (.inl hf)
    · refine .faulted e ?_
      rcases jump_error he with h | h | rfl
      · exact reported_of_value (by simp [Instr.literals]) h
      · exact reported_of_value (by simp [Instr.literals]) h
      · exact .overflow
  | jumpIfFalse o1 o2 u3 =>
    rcases complete_eq_next.mp h with h | ⟨e, he, rfl⟩
    · obtain ⟨c, -, ⟨-, n, hn, rfl⟩ | ⟨-, hf, rfl⟩⟩ := jump_ok h
      · exact .jumped o1 o2 u3 n (.inr rfl) (.inr hn)
      · exact .jumped o1 o2 u3 _ (.inr rfl) (.inl hf)
    · refine .faulted e ?_
      rcases jump_error he with h | h | rfl
      · exact reported_of_value (by simp [Instr.literals]) h
      · exact reported_of_value (by simp [Instr.literals]) h
      · exact .overflow
  | adjustBase o1 u2 u3 =>
    rcases complete_eq_next.mp h with h | ⟨e, he, rfl⟩
    · obtain ⟨x, -, hb, hf, rfl⟩ := adjustBase_eq_ok.mp h
      exact .adjusted o1 u2 u3 x rfl hb hf
    · refine .faulted e ?_
      rcases adjustBase_eq_error.mp he with h | ⟨x, -, rfl, -⟩
      · exact reported_of_value (by simp [Instr.literals]) h
      · exact .overflow
  | halt u1 u2 u3 =>
    rcases complete_eq_next.mp h with h | ⟨e, he, rfl⟩
    · rcases halt_cases (s := s) with ⟨n, h', hn⟩ | ⟨h', -⟩
      · rw [h'] at h
        cases h
        refine .halted u1 u2 u3 n rfl ?_
        rcases ipAfterHalt_cases (s := s) with ⟨h, -⟩ | ⟨h, -, hf⟩ | ⟨h, -⟩ <;> rw [h] at hn <;> cases hn
        · exact .inl rfl
        · exact .inr hf
      · rw [h'] at h
        cases h
    · rcases halt_cases (s := s) with ⟨n, h', -⟩ | ⟨h', -⟩ <;> rw [h'] at he <;> cases he
      exact .faulted _ .overflow

/-! ### Fetching -/

/-- What a fetched instruction is: the opcode integer at `ip` decoded, its literals from the cells after it (R116). -/
theorem fetchInstr_eq_ok {s : State} {i : Instr} :
    fetchInstr s = .ok i ↔
      ∃ v c l1 l2 l3, memRead s.mem s.ip = .ok v ∧ decodeOpcode v = .ok c ∧
        fetchLiteral s c.kind.arity 1 = .ok l1 ∧ fetchLiteral s c.kind.arity 2 = .ok l2 ∧
        fetchLiteral s c.kind.arity 3 = .ok l3 ∧ i = build c l1 l2 l3 := by
  have hd : ∀ v c, decodePhase v = .ok c ↔ decodeOpcode v = .ok c := fun v c => by
    unfold decodePhase
    split <;> simp_all
  simp only [fetchInstr, except_bind_eq_ok, hd, pure, Except.pure, Except.ok.injEq]
  constructor
  · rintro ⟨v, hv, c, hc, l1, h1, l2, h2, l3, h3, rfl⟩
    exact ⟨v, c, l1, l2, l3, hv, hc, h1, h2, h3, rfl⟩
  · rintro ⟨v, c, l1, l2, l3, hv, hc, h1, h2, h3, rfl⟩
    exact ⟨v, hv, c, hc, l1, h1, l2, h2, l3, h3, rfl⟩

/-- A fetched literal is the content of its cell, and its address is in range; beyond the arity it is not fetched. -/
theorem fetchLiteral_ok {s : State} {n k : Nat} {l : Int} (h : fetchLiteral s n k = .ok l) :
    (k ≤ n ∧ fits s.cfg.width (s.ip + k) = true ∧ l = readCell s.mem (s.ip + k).toNat) ∨ (n < k ∧ l = 0) := by
  unfold fetchLiteral at h
  split at h
  · next hk =>
    obtain ⟨a, ha, h⟩ := except_bind_eq_ok.mp h
    obtain ⟨hf, rfl⟩ := narrow_eq_ok.mp ha
    exact .inl ⟨hk, hf, (memRead_eq_ok.mp h).2⟩
  · next hk =>
    cases h
    exact .inr ⟨by omega, rfl⟩

theorem fetchLiteral_error {s : State} {n k : Nat} {e : Fault} (h : fetchLiteral s n k = .error e) :
    k ≤ n ∧ ((fits s.cfg.width (s.ip + k) = false ∧ e = .overflow) ∨
      (fits s.cfg.width (s.ip + k) = true ∧ s.ip + k < 0 ∧ e = .negativeAddress (s.ip + k))) := by
  unfold fetchLiteral at h
  split at h
  · next hk =>
    refine ⟨hk, ?_⟩
    rcases except_bind_eq_error.mp h with h | ⟨a, ha, h⟩
    · exact .inl (narrow_eq_error.mp h)
    · obtain ⟨hf, rfl⟩ := narrow_eq_ok.mp ha
      obtain ⟨hn, rfl⟩ := memRead_eq_error.mp h
      exact .inr ⟨hf, hn, rfl⟩
  · cases h

/-- How a fetch faults: on `ip`, on the opcode integer, or on a literal's address (R152, R154, R226). -/
theorem fetchInstr_error {s : State} {e : Fault} (h : fetchInstr s = .error e) :
    (s.ip < 0 ∧ e = .negativeAddress s.ip) ∨
    (0 ≤ s.ip ∧ e = .decodeError (readCell s.mem s.ip.toNat)) ∨
    (0 ≤ s.ip ∧ e = .overflow) := by
  rcases except_bind_eq_error.mp h with h | ⟨v, hv, h⟩
  · exact .inl (memRead_eq_error.mp h)
  · obtain ⟨h0, rfl⟩ := memRead_eq_ok.mp hv
    have hlit : ∀ n k, fetchLiteral s n k = .error e → 0 ≤ s.ip ∧ e = .overflow := fun n k h => by
      rcases fetchLiteral_error h with ⟨-, ⟨-, rfl⟩ | ⟨-, hn, -⟩⟩
      · exact ⟨h0, rfl⟩
      · omega
    rcases except_bind_eq_error.mp h with h | ⟨c, -, h⟩
    · refine .inr (.inl ⟨h0, ?_⟩)
      unfold decodePhase at h
      split at h
      · cases h
      · next u hu =>
        cases h
        unfold decodeOpcode at hu
        repeat' split at hu
        all_goals simp_all
    · refine .inr (.inr ?_)
      rcases except_bind_eq_error.mp h with h | ⟨l1, -, h⟩
      · exact hlit _ _ h
      rcases except_bind_eq_error.mp h with h | ⟨l2, -, h⟩
      · exact hlit _ _ h
      rcases except_bind_eq_error.mp h with h | ⟨l3, -, h⟩
      · exact hlit _ _ h
      cases h

/-! ### The step -/

/-- Everything a step can do: rest, fault at the fetch, or execute the fetched instruction. -/
theorem step_cases {s t : State} (h : step s = .next t) :
    (s.status ≠ .running ∧ t = s) ∨
    (s.status = .running ∧ ∃ f, fetchInstr s = .error f ∧ t = raise f s) ∨
    (s.status = .running ∧ ∃ i, fetchInstr s = .ok i ∧ Effect i s t) := by
  unfold step at h
  split at h
  · next hs =>
    split at h
    · next i hi => exact .inr (.inr ⟨hs, i, hi, exec_cases h⟩)
    · next f hf =>
      cases h
      exact .inr (.inl ⟨hs, f, hf, rfl⟩)
  all_goals
    cases h
    exact .inl ⟨by simp [*], rfl⟩

theorem step_running {s : State} {i : Instr} (hs : s.status = .running) (hi : fetchInstr s = .ok i) :
    step s = exec i s := by
  simp only [step, hs, hi]

theorem step_fetch_fault {s : State} {f : Fault} (hs : s.status = .running) (hf : fetchInstr s = .error f) :
    step s = .next (raise f s) := by
  simp only [step, hs, hf]

end Sys2Proof.Machine
end

