-- ==== Sys2Proof/Laws/PerInstr.lean ====
section
/-! SUPPORT. The family of statements made per instruction: an instruction's cells are as many as the width of its kind
(30_encoding.md R80, R83). -/

namespace Sys2Proof.Laws.EncodedLength

/-- R80, R83: the encoding of an instruction is one opcode integer and one literal per operand, `Width(kind)` cells. -/
def Statement (i : Instr) : Prop := (encode i).length = i.opCode.kind.width

theorem add (o1 o2 o3 : Operand) : Statement (.add o1 o2 o3) := rfl
theorem multiply (o1 o2 o3 : Operand) : Statement (.multiply o1 o2 o3) := rfl
theorem input (o1 : Operand) (u2 u3 : Mode) : Statement (.input o1 u2 u3) := rfl
theorem output (o1 : Operand) (u2 u3 : Mode) : Statement (.output o1 u2 u3) := rfl
theorem jumpIfTrue (o1 o2 : Operand) (u3 : Mode) : Statement (.jumpIfTrue o1 o2 u3) := rfl
theorem jumpIfFalse (o1 o2 : Operand) (u3 : Mode) : Statement (.jumpIfFalse o1 o2 u3) := rfl
theorem testLessThan (o1 o2 o3 : Operand) : Statement (.testLessThan o1 o2 o3) := rfl
theorem testEqual (o1 o2 o3 : Operand) : Statement (.testEqual o1 o2 o3) := rfl
theorem adjustBase (o1 : Operand) (u2 u3 : Mode) : Statement (.adjustBase o1 u2 u3) := rfl
theorem halt (u1 u2 u3 : Mode) : Statement (.halt u1 u2 u3) := rfl

end Sys2Proof.Laws.EncodedLength
end

