-- ==== Sys2Proof/Laws/Ports.lean ====
section
/-! SUPPORT. What a host action does to the input queue, and the items supplied along a run. -/

namespace Sys2Proof.Machine

/-- What comes into the queue holds an `Int` of the width. -/
theorem queuedItem_fits (cfg : Config) (item : InItem) : itemFits cfg.width (queuedItem cfg item) = true := by
  cases item with
  | value v =>
    simp only [queuedItem, itemOfValue]
    split
    · assumption
    · rfl
  | unparseable => rfl
  | transportFailed => rfl

/-- An item that fits comes into the queue as it is. -/
theorem queuedItem_of_fits {cfg : Config} {item : InItem} (h : itemFits cfg.width item = true) :
    queuedItem cfg item = item := by
  cases item with
  | value v => exact if_pos h
  | unparseable => rfl
  | transportFailed => rfl

/-- A host action keeps the parameters and appends its items to the queue, if any. -/
theorem act_queue {h : HostAction} {s t : State} (ha : act h s = .next t) :
    t.cfg = s.cfg ∧ t.inQ = s.inQ ++ h.items s.cfg := by
  have keep : t.cfg = s.cfg → t.inQ = s.inQ → h.items s.cfg = [] → t.cfg = s.cfg ∧ t.inQ = s.inQ ++ h.items s.cfg :=
    fun h1 h2 h3 => ⟨h1, by rw [h2, h3, List.append_nil]⟩
  cases h with
  | load image =>
    simp only [act, State.load] at ha
    split at ha
    · cases ha
    · split at ha
      · cases ha
      · cases ha; exact keep rfl rfl rfl
  | start =>
    simp only [act, State.start] at ha
    split at ha <;> cases ha
    exact keep rfl rfl rfl
  | poke a v =>
    simp only [act, State.poke] at ha
    split at ha
    · split at ha
      · split at ha
        · cases ha; exact keep rfl rfl rfl
        · cases ha
      · cases ha
    all_goals cases ha
  | supply item => cases ha; exact ⟨rfl, rfl⟩
  | supplyLine line => cases ha; exact ⟨rfl, rfl⟩
  | answer a => cases ha; exact keep rfl rfl rfl
  | sinkRest a => cases ha; exact keep rfl rfl rfl

/-- One event more supplies its own items more. -/
theorem itemsBy_succ (ev : Nat → Event) (s : State) (n : Nat) :
    itemsBy ev s (n + 1) = itemsBy ev s n ++ (ev n).items s.cfg := by
  simp [itemsBy, List.range_succ]

end Sys2Proof.Machine
end

