-- ==== Sys2Proof/Laws/Safety.lean ====
section
/-! SUPPORT. The parts of the invariant by name, and that the memory operations keep integers within the width. -/

namespace Sys2Proof.Machine

/-- The invariant, part by part. -/
theorem State.inv_iff {s : State} :
    s.inv = true ↔
      s.cfg.legal = true ∧ s.mem.wf = true ∧ cellsFit s.cfg.width s.mem.cells = true ∧
      fits s.cfg.width s.ip = true ∧ fits s.cfg.width s.bp = true ∧ fits s.cfg.width s.causeInfo = true ∧
      s.result.all (fits s.cfg.width) = true ∧ s.out.all (fits s.cfg.width) = true ∧
      s.inQ.all (itemFits s.cfg.width) = true ∧ s.extentFits = true ∧ s.statusAgrees = true := by
  simp only [State.inv, State.integersFit, Bool.and_eq_true, and_assoc]

/-- Under legal parameters every 16-bit integer is an `Int` (R6: a finite `W` is at least 16). -/
theorem fits_of_legal {cfg : Config} (h : cfg.legal = true) {v : Int} (h0 : -32768 ≤ v) (h1 : v < 32768) :
    fits cfg.width v = true := by
  unfold Config.legal at h
  rw [Bool.and_eq_true] at h
  cases hw : cfg.width with
  | none => rfl
  | some n =>
    rw [hw] at h
    have hn : 16 ≤ n := of_decide_eq_true h.1
    have : 2 ^ 15 ≤ 2 ^ (n - 1) := Nat.pow_le_pow_right (by omega) (by omega)
    simp only [fits, Bool.and_eq_true, decide_eq_true_eq]
    omega

theorem cellsFit_cons {w : Width} {a : Nat} {v : Int} {t : List Cell} :
    cellsFit w ((a, v) :: t) = true ↔ fits w v = true ∧ cellsFit w t = true := by
  simp only [cellsFit, List.all_cons, Bool.and_eq_true]

theorem lookup_fits {w : Width} (h0 : fits w 0 = true) {l : List Cell} (h : cellsFit w l = true) (a : Nat) :
    fits w (lookup l a) = true := by
  induction l with
  | nil => exact h0
  | cons c t ih =>
    obtain ⟨b, v⟩ := c
    obtain ⟨hv, ht⟩ := cellsFit_cons.mp h
    rw [lookup]
    split
    · exact hv
    · exact ih ht

theorem readCell_fits {w : Width} (h0 : fits w 0 = true) {m : Memory} (h : cellsFit w m.cells = true) (a : Nat) :
    fits w (readCell m a) = true := by
  unfold readCell
  split
  · exact lookup_fits h0 h a
  · exact h0

theorem putCell_fits {w : Width} {l : List Cell} (h : cellsFit w l = true) (a : Nat) {v : Int}
    (hv : fits w v = true) : cellsFit w (putCell l a v) = true := by
  induction l with
  | nil =>
    rw [putCell]
    split
    · rfl
    · exact cellsFit_cons.mpr ⟨hv, rfl⟩
  | cons c t ih =>
    obtain ⟨b, x⟩ := c
    obtain ⟨hx, ht⟩ := cellsFit_cons.mp h
    rw [putCell]
    split
    · exact cellsFit_cons.mpr ⟨hx, ih ht⟩
    · split
      · split
        · exact ht
        · exact cellsFit_cons.mpr ⟨hv, ht⟩
      · split
        · exact h
        · exact cellsFit_cons.mpr ⟨hv, h⟩

theorem storeCell_fits {w : Width} (cfg : Config) {m : Memory} (h : cellsFit w m.cells = true) (a : Nat) {v : Int}
    (hv : fits w v = true) : cellsFit w (storeCell cfg m a v).cells = true := by
  unfold storeCell
  split
  · exact putCell_fits h a hv
  · refine putCell_fits (List.all_eq_true.mpr fun c hc => ?_) a hv
    exact List.all_eq_true.mp h c (List.mem_filter.mp hc).1

theorem imageCells_fits {w : Width} (a : Nat) {l : List Int} (h : l.all (fits w) = true) :
    cellsFit w (imageCells a l) = true := by
  induction l generalizing a with
  | nil => rfl
  | cons v vs ih =>
    rw [List.all_cons, Bool.and_eq_true] at h
    rw [imageCells]
    split
    · exact ih _ h.2
    · exact cellsFit_cons.mpr ⟨h.1, ih _ h.2⟩

/-- A store that R54 allows leaves a good memory within the bounds of the parameters. -/
theorem storeCell_extent_le {cfg : Config} {m : Memory} {n : Nat} (a : Nat) (v : Int) (hn : cfg.memMax = some n)
    (h : m.extent ≤ n) : (storeCell cfg m a v).extent ≤ n := by
  by_cases ha : a < m.extent
  · rw [storeCell_extent_below v ha]
    exact h
  · rw [storeCell_extent_beyond v (by omega)]
    exact growExtent_le _ _ hn

/-- Every opcode integer is a 16-bit integer (R82: the largest is 22299). -/
theorem encodeOpcode_bounds (c : OpCode) : 0 ≤ encodeOpcode c ∧ encodeOpcode c < 32768 := by
  obtain ⟨k, a, b, d⟩ := c
  cases k <;> cases a <;> cases b <;> cases d <;> decide

end Sys2Proof.Machine
end

