-- ==== Sys2Proof/Tests/Slice0.lean ====
section
/-! SUPPORT. The model's own tests. Expected results come from the tables of the spec's test vectors
(spec/95_test_vectors.md V1 to V8) and rules, never from the model. Then the witnesses: for every statement with
hypotheses, a state and operands that meet them. -/

namespace Sys2Proof.Tests

open Sys2Proof Sys2Proof.Machine

/-! ### Helpers -/

/-- A started machine with an image. -/
def machine (image : List Int) (ip bp : Int) (inQ : List InItem) : State :=
  { State.reset with mem := Memory.ofImage image, ip := ip, bp := bp, inQ := inQ, status := .running }

/-- The same with other parameters. -/
def machineIn (cfg : Config) (image : List Int) (ip bp : Int) : State :=
  { machine image ip bp [] with cfg := cfg }

/-- The parameters with a finite width, with a finite memory, with the lazy jump target, with Halt advancing. -/
def width16 : Config := { Config.defaults with width := some 16 }
def width64 : Config := { Config.defaults with width := some 64 }
def cells8 : Config := { Config.defaults with memMax := some 8 }
def lazyTarget : Config := { Config.defaults with lazyJumpTarget := true }
def haltAdvances : Config := { Config.defaults with haltAdvancesIp := true }
def plusSign : Config := { Config.defaults with plusSignOk := true }

/-- The next state, if there is one. -/
def after : Answer → Option State
  | .next s => some s
  | .fault _ => none
  | .refused _ => none

theorem next_of_after {x : Answer} {s : State} (h : after x = some s) : x = .next s := by
  cases x with
  | next t => cases h; rfl
  | fault _ => cases h
  | refused _ => cases h

/-- What V5 shows of a state: the snapshot, `ip`, `bp`, `out` and what is left of the input. -/
def view (s : State) : List Int × Int × Int × List Int × List InItem := (s.mem.snapshot, s.ip, s.bp, s.out, s.inQ)

/-- One step and its view. -/
def oneStep (s : State) : Option (List Int × Int × Int × List Int × List InItem) := (after (step s)).map view

/-- One step and the status port. -/
def statusAfter (s : State) : Option (Nat × Nat × Int) := (after (step s)).map State.statusPort

/-! ### Well-formedness: an ill-formed instruction for each check -/

/-- R117: an Immediate destination. -/
theorem test_wf_refuses_immediate_dest :
    (Instr.add ⟨.address, 1⟩ ⟨.immediate, 2⟩ ⟨.immediate, 3⟩).wellFormed none = false ∧
    (Instr.input ⟨.immediate, 3⟩ .address .address).wellFormed none = false := by decide

/-- R8: 32768 is no `Int` of 16 bits. -/
theorem test_wf_refuses_wide_literal :
    (Instr.output ⟨.immediate, 32768⟩ .address .address).wellFormed (some 16) = false ∧
    (Instr.output ⟨.immediate, -32769⟩ .address .address).wellFormed (some 16) = false := by decide

/-- An unused slot may hold any mode (R85). -/
theorem test_wf_accepts :
    (Instr.add ⟨.relative, -32768⟩ ⟨.immediate, 32767⟩ ⟨.relative, 0⟩).wellFormed (some 16) = true ∧
    (Instr.halt .immediate .relative .immediate).wellFormed (some 16) = true := by decide

/-! ### Decoding: opcode integers written out from the layout `10000*m3 + 1000*m2 + 100*m1 + op` (R81, R84, V1) -/

theorem test_decode_add :
    decode [21001, 5, 6, 7] = .ok (.add ⟨.address, 5⟩ ⟨.immediate, 6⟩ ⟨.relative, 7⟩) := by rfl
theorem test_decode_multiply :
    decode [1202, -5, 6, 7] = .ok (.multiply ⟨.relative, -5⟩ ⟨.immediate, 6⟩ ⟨.address, 7⟩) := by rfl
theorem test_decode_input : decode [21203, 9] = .ok (.input ⟨.relative, 9⟩ .immediate .relative) := by rfl
theorem test_decode_output : decode [12104, -9] = .ok (.output ⟨.immediate, -9⟩ .relative .immediate) := by rfl
theorem test_decode_jumpIfTrue :
    decode [12005, 1, 2] = .ok (.jumpIfTrue ⟨.address, 1⟩ ⟨.relative, 2⟩ .immediate) := by rfl
theorem test_decode_jumpIfFalse :
    decode [21106, 1, 2] = .ok (.jumpIfFalse ⟨.immediate, 1⟩ ⟨.immediate, 2⟩ .relative) := by rfl
theorem test_decode_testLessThan :
    decode [2107, 1, 2, 3] = .ok (.testLessThan ⟨.immediate, 1⟩ ⟨.relative, 2⟩ ⟨.address, 3⟩) := by rfl
theorem test_decode_testEqual :
    decode [20208, 1, 2, 3] = .ok (.testEqual ⟨.relative, 1⟩ ⟨.address, 2⟩ ⟨.relative, 3⟩) := by rfl
theorem test_decode_adjustBase : decode [12009, 4] = .ok (.adjustBase ⟨.address, 4⟩ .relative .immediate) := by rfl
theorem test_decode_halt : decode [21099] = .ok (.halt .address .immediate .relative) := by rfl

/-- V2: integers the decoder refuses. -/
theorem test_decode_refuses :
    ([0, 10, 33, 98, 100, 1100, 1010, 301, 3001, 30001, 901, 399, 30004, 3005, 30005, 22300, 100001, 122201, -1, -99,
      -1002] : List Int).all (fun v =>
        match decodeOpcode v with
        | .ok _ => false
        | .error e => e == .malformed v) = true := by decide

/-- The word of the opcode table is the opcode integer, whatever number of bits is named. -/
theorem test_table_word :
    decodeTableWord 8 4 = some (.output ⟨.address, 0⟩ .address .address) ∧ decodeTableWord 16 1234 = none ∧
    decodeTableWord 16 22299 = some (.halt .relative .relative .relative) := by decide

/-- A placed word is the next instruction: OUT [0] emits the 4 in cell 0, its own opcode integer. -/
theorem test_placed_word_runs : oneStep (State.reset.withFetchWord 8 4) = some ([4, 0, 0, 0], 2, 0, [4], []) := by decide

/-! ### The memory primitives (V3) -/

/-- V3 rows 5 to 8: after a write to `[5, 6, 7]`. -/
theorem test_memory_writes :
    (storeCell Config.defaults (Memory.ofImage [5, 6, 7]) 3 9).snapshot = [5, 6, 7, 9] ∧
    (storeCell Config.defaults (Memory.ofImage [5, 6, 7]) 6 9).snapshot = [5, 6, 7, 0, 0, 0, 9] ∧
    (storeCell Config.defaults (Memory.ofImage [5, 6, 7]) 5 0).snapshot = [5, 6, 7, 0, 0, 0] ∧
    (storeCell Config.defaults (Memory.ofImage [5, 6, 7]) 0 (-4)).snapshot = [-4, 6, 7] := by decide

/-- V3 rows 1 to 4, 9 and 12. -/
theorem test_memory_reads_and_faults :
    memRead (Memory.ofImage [5, 6, 7]) 2 = .ok 7 ∧ memRead (Memory.ofImage [5, 6, 7]) 3 = .ok 0 ∧
    memRead (Memory.ofImage [5, 6, 7]) 1000000 = .ok 0 ∧
    memRead (Memory.ofImage [5, 6, 7]) (-1) = .error (.negativeAddress (-1)) ∧
    memWrite Config.defaults (Memory.ofImage [5, 6, 7]) (-1) 1 = .error (.negativeAddress (-1)) ∧
    memWrite { Config.defaults with memMax := some 3 } (Memory.ofImage [5, 6, 7]) 3 9 = .error (.outOfMemory 3) := by
  decide

/-! ### One step of each instruction (V5, row numbers as there) -/

/-- V5 row 3. -/
theorem test_add_relative :
    oneStep (machine [22201, 1, 2, 3, 0, 0, 0, 0, 0, 0, 0, 40, 2] 0 10 []) =
      some ([22201, 1, 2, 3, 0, 0, 0, 0, 0, 0, 0, 40, 2, 42], 4, 10, [], []) := by decide
/-- V5 row 4. -/
theorem test_add_over_itself :
    oneStep (machine [1, 0, 0, 0] 0 0 []) = some ([2, 0, 0, 0], 4, 0, [], []) := by decide
/-- V5 row 6. -/
theorem test_multiply_negative :
    oneStep (machine [2, 5, 6, 7, 99, -3, 4, 0] 0 0 []) = some ([2, 5, 6, 7, 99, -3, 4, -12], 4, 0, [], []) := by decide
/-- V5 row 9. -/
theorem test_multiply_own_opcode :
    oneStep (machine [102, 2, 0, 0] 0 0 []) = some ([204, 2, 0, 0], 4, 0, [], []) := by decide
/-- V5 row 11. -/
theorem test_input_relative :
    oneStep (machine [203, 2, 99] 0 5 [.value (-9)]) = some ([203, 2, 99, 0, 0, 0, 0, -9], 2, 5, [], []) := by decide
/-- V5 row 12. -/
theorem test_input_over_itself :
    oneStep (machine [3, 0, 99] 0 0 [.value 0, .value 8]) = some ([0, 0, 99], 2, 0, [], [.value 8]) := by decide
/-- V5 row 15. -/
theorem test_output_relative :
    oneStep (machine [204, -1, 0, 31] 0 4 []) = some ([204, -1, 0, 31], 2, 4, [31], []) := by decide
/-- V5 row 16. -/
theorem test_output_beyond_extent :
    oneStep (machine [4, 50] 0 0 []) = some ([4, 50], 2, 0, [0], []) := by decide
/-- V5 row 21. -/
theorem test_jumpIfTrue_relative :
    oneStep (machine [2105, 1, 1, 0, 0, 0, 55] 0 5 []) = some ([2105, 1, 1, 0, 0, 0, 55], 55, 5, [], []) := by decide
/-- V5 row 23. -/
theorem test_jumpIfTrue_to_negative :
    oneStep (machine [1105, 1, -3] 0 0 []) = some ([1105, 1, -3], -3, 0, [], []) := by decide
/-- V5 row 26. -/
theorem test_jumpIfFalse_not_taken :
    oneStep (machine [1106, 5, 7] 0 0 []) = some ([1106, 5, 7], 3, 0, [], []) := by decide
/-- V5 row 27. -/
theorem test_jumpIfFalse_taken :
    oneStep (machine [1006, 90, 7] 0 0 []) = some ([1006, 90, 7], 7, 0, [], []) := by decide
/-- V5 row 31. -/
theorem test_testLessThan_signed :
    oneStep (machine [1107, -1, 0, 0] 0 0 []) = some ([1, -1, 0, 0], 4, 0, [], []) := by decide
/-- V5 row 30. -/
theorem test_testLessThan_equal :
    oneStep (machine [1107, 3, 3, 0] 0 0 []) = some ([0, 3, 3, 0], 4, 0, [], []) := by decide
/-- V5 row 36. -/
theorem test_testEqual_grows :
    oneStep (machine [8, 0, 0, 9] 0 0 []) = some ([8, 0, 0, 9, 0, 0, 0, 0, 0, 1], 4, 0, [], []) := by decide
/-- V5 row 35. -/
theorem test_testEqual_sign :
    oneStep (machine [1108, 8, -8, 0] 0 0 []) = some ([0, 8, -8, 0], 4, 0, [], []) := by decide
/-- V5 row 42. -/
theorem test_adjustBase_old_base :
    oneStep (machine [209, 1, 0, 0, 0, 0, 6] 0 5 []) = some ([209, 1, 0, 0, 0, 0, 6], 2, 11, [], []) := by decide
/-- V5 row 40. -/
theorem test_adjustBase_below_zero :
    oneStep (machine [109, -5] 0 2 []) = some ([109, -5], 2, -3, [], []) := by decide
/-- V5 row 46. -/
theorem test_halt :
    (after (step (machine [5, 0, 0, 99] 3 9 []))).map (fun t => (view t, t.status, t.resultPort)) =
      some (([5, 0, 0, 99], 3, 9, [], []), .halted, some 5) := by rfl
/-- V7 row 3. -/
theorem test_halt_advances :
    (after (step (machineIn haltAdvances [99] 0 0))).map (fun t => (t.ip, t.resultPort)) = some (1, some 99) := by decide

/-! ### One step that faults (V6) and the parameters (V7) -/

/-- V6 rows 1, 2, 3, 6, 8. -/
theorem test_fetch_faults :
    statusAfter (machine [] 0 0 []) = some (3, 1, 0) ∧ statusAfter (machine [1101, 1, 1, 0] 4 0 []) = some (3, 1, 0) ∧
    statusAfter (machine [33, 0, 0] 0 0 []) = some (3, 1, 33) ∧ statusAfter (machine [-1] 0 0 []) = some (3, 1, -1) ∧
    statusAfter (machine [99] (-3) 0 []) = some (3, 3, -3) := by decide

/-- V6 rows 9 to 13. -/
theorem test_addressing_faults :
    statusAfter (machine [11101, 1, 1, 0, 99] 0 0 []) = some (3, 2, 11101) ∧
    statusAfter (machine [10002, 1, 1, 0] 0 0 []) = some (3, 2, 10002) ∧
    statusAfter (machine [10007, 1, 1, 0] 0 0 []) = some (3, 2, 10007) ∧
    statusAfter (machine [10008, 1, 1, 0] 0 0 []) = some (3, 2, 10008) ∧
    statusAfter (machine [103, 5, 99] 0 0 [.value 7]) = some (3, 2, 103) := by decide

/-- V6 rows 14 to 17. -/
theorem test_negative_address_faults :
    statusAfter (machine [1, -1, 0, 0] 0 0 []) = some (3, 3, -1) ∧
    statusAfter (machine [1, 0, -2, 0] 0 0 []) = some (3, 3, -2) ∧
    statusAfter (machine [1, 0, 0, -7] 0 0 []) = some (3, 3, -7) ∧
    statusAfter (machine [201, -1, 0, 0] 0 0 []) = some (3, 3, -1) := by decide

/-- V7 row 1. -/
theorem test_lazy_jump_target :
    statusAfter (machine [105, 0, -1, 99] 0 0 []) = some (3, 3, -1) ∧
    oneStep (machineIn lazyTarget [105, 0, -1, 99] 0 0) = some ([105, 0, -1, 99], 3, 0, [], []) := by decide

/-- V7 row 4. -/
theorem test_growth_policies :
    oneStep (machine [1101, 1, 1, 6, 99] 0 0 []) = some ([1101, 1, 1, 6, 99, 0, 2], 4, 0, [], []) ∧
    oneStep (machineIn { Config.defaults with grow := .doubling } [1101, 1, 1, 6, 99] 0 0) =
      some ([1101, 1, 1, 6, 99, 0, 2, 0, 0, 0], 4, 0, [], []) := ⟨by decide, by decide⟩

/-- V7 rows 5 to 7. -/
theorem test_finite_parameters :
    statusAfter (machineIn width64 [1102, 4294967296, 4294967296, 0, 99] 0 0) = some (3, 6, 0) ∧
    statusAfter (machineIn width64 [1101, 9223372036854775807, 1, 0, 99] 0 0) = some (3, 6, 0) ∧
    statusAfter (machineIn cells8 [1101, 1, 1, 8, 99] 0 0) = some (3, 7, 8) := by decide

/-- P7 rows 5 and 6: the bad item has been consumed. -/
theorem test_bad_items :
    (after (step (machine [3, 0, 4, 0, 99] 0 0 [.unparseable]))).map (fun t => (t.statusPort, t.inQ)) =
      some ((3, 4, 0), []) ∧
    (after (step (machine [3, 0, 4, 0, 99] 0 0 [.transportFailed]))).map (fun t => (t.statusPort, t.inQ)) =
      some ((3, 5, 0), []) := by decide

/-! ### Lines (V8) -/

theorem test_lines_accepted :
    lineItem Config.defaults (some ['4', '2']) = .value 42 ∧ lineItem Config.defaults (some ['-', '7']) = .value (-7) ∧
    lineItem Config.defaults (some [' ', ' ', '1', '3', ' ', ' ']) = .value 13 ∧
    lineItem Config.defaults (some ['0', '0', '7']) = .value 7 ∧ lineItem plusSign (some ['+', '5']) = .value 5 := by
  decide

theorem test_lines_refused :
    ([[], ['a', 'b', 'c'], ['4', ' ', '2'], ['1', ',', '2'], ['-', '-', '5'], ['-'], ['3', '.', '0'],
      ['+', '5']] : List (List Char)).all (fun l => lineItem Config.defaults (some l) == .unparseable) = true ∧
    lineItem Config.defaults none = .transportFailed ∧
    lineItem width16 (some ['3', '2', '7', '6', '8']) = .unparseable := by decide

/-! ### Witnesses: states and operands that meet the hypotheses of each statement, clause by clause -/

/-- The parameters at the edges: 16 bits and 8 cells. -/
def small : Config := { Config.defaults with width := some 16, memMax := some 8 }

/-- A started machine of 16 bits and 8 cells: five cells present, `ip` and `bp` given. -/
def smallMachine (ip bp : Int) : State := machineIn small [7, -1, 0, 32767, 5] ip bp

def imm (v : Int) : Operand := ⟨.immediate, v⟩
def adr (a : Int) : Operand := ⟨.address, a⟩
def rel (k : Int) : Operand := ⟨.relative, k⟩

theorem witness_LoadPutsTheImageInACleanMachine :
    imageFitsMemory small [0, 1, 2, 3, 4, 5, -32768, 32767] = true ∧
    ([0, 1, 2, 3, 4, 5, -32768, 32767] : List Int).all (fits small.width) = true := by decide

theorem witness_LoadRefusesExactlyTheBadImages :
    imageFitsMemory small [0, 0, 0, 0, 0, 0, 0, 0, 0] = false ∧
    imageFitsMemory small [32768] = true ∧ ([32768] : List Int).all (fits small.width) = false ∧
    imageFitsMemory small [0, 0, 0, 0, 0, 0, 0, 32767] = true ∧
    ([0, 0, 0, 0, 0, 0, 0, 32767] : List Int).all (fits small.width) = true := by decide

theorem witness_StartRunsOnlyAnIdleMachine :
    State.reset.status = .idle ∧ (smallMachine 0 0).status ≠ .idle := by decide

theorem witness_PokesReachAnIdleMachineOnly :
    (smallMachine 0 0).status ≠ .idle ∧
    (State.reset.status = .idle ∧ fits State.reset.cfg.width (-1) = true ∧ (-1 : Int) < 0) ∧
    ({ smallMachine 0 0 with status := .idle }.status = .idle ∧ fits small.width 8 = true ∧
      fits small.width 32767 = true ∧ (0 : Int) ≤ 8 ∧ overCapacity small (Int.toNat 8) = true) ∧
    (fits small.width 7 = true ∧ (0 : Int) ≤ 7 ∧ overCapacity small (Int.toNat 7) = false ∧
      (smallMachine 0 0).mem.wf = true) := by decide

theorem witness_InspectShowsPointersAndEveryPresentCell : 4 < (smallMachine 0 0).mem.extent := by decide

theorem witness_InputLinesBecomeItems_numbers :
    (∀ c ∈ [' ', '\t'], c.isWhitespace = true) ∧ (∀ c ∈ ['\n'], c.isWhitespace = true) ∧ [0, 0, 9] ≠ ([] : List Nat) ∧
    (∀ d ∈ [0, 0, 9], d < 10) ∧ 9 = [0, 0, 9].foldl (fun v d => 10 * v + d) 0 ∧
    ∃ item : Int → InItem, ∀ v, item v = if fits small.width v then .value v else .unparseable :=
  ⟨by simp [Char.isWhitespace], by simp [Char.isWhitespace], by decide, by decide, rfl, _, fun _ => rfl⟩

/-- The lines `-` and `` (empty) hold no number, however their ends are trimmed. -/
theorem witness_InputLinesBecomeItems_others :
    (∀ before body after : List Char, (∀ c ∈ before, c.isWhitespace = true) → (∀ c ∈ after, c.isWhitespace = true) →
      [] = before ++ body ++ after → ¬ IsNumeral body) ∧
    (∀ before body after : List Char, (∀ c ∈ before, c.isWhitespace = true) → (∀ c ∈ after, c.isWhitespace = true) →
      ['-'] = before ++ body ++ after → ¬ IsNumeral body) := by
  have long : ∀ body : List Char, IsNumeral body → ∃ d < 10, Nat.digitChar d ∈ body := by
    rintro body ⟨digits, hne, hd, h⟩
    obtain ⟨d, hm⟩ := List.exists_mem_of_ne_nil digits hne
    exact ⟨d, hd d hm, by rcases h with rfl | rfl | rfl <;> simp <;> exact ⟨d, hm, rfl⟩⟩
  constructor
  · intro before body after _ _ h hn
    obtain ⟨d, _, hm⟩ := long body hn
    have : Nat.digitChar d ∈ ([] : List Char) := by rw [h]; simp [hm]
    cases this
  · intro before body after _ _ h hn
    obtain ⟨d, hd, hm⟩ := long body hn
    have : Nat.digitChar d ∈ ['-'] := by rw [h]; simp [hm]
    have no : ∀ d < 10, Nat.digitChar d ∉ ['-'] := by decide
    exact no d hd this

theorem witness_SuppliedItemsGoToTheTail :
    (∀ u, (InItem.value 32767) = .value u → fits small.width u = true) ∧
    (∀ u, InItem.unparseable = .value u → fits small.width u = true) ∧ fits small.width 32768 = false :=
  ⟨by rintro u ⟨⟩; decide, by rintro u ⟨⟩, by decide⟩

/-- R30: first in, first out. -/
theorem test_supply_appends :
    ((machine [99] 0 0 [.value 1]).supply (.value 2)).inQ = [.value 1, .value 2] ∧
    ((smallMachine 0 0).supply (.value 32768)).inQ = [.unparseable] := by decide

theorem witness_MemReadFollowsItsThreeCases :
    (-1 : Int) < 0 ∧ ((0 : Int) ≤ 3 ∧ (Memory.ofImage [5, 6, 7]).extent ≤ Int.toNat 3) ∧
    ((0 : Int) ≤ 2 ∧ Int.toNat 2 < (Memory.ofImage [5, 6, 7]).extent) := by decide

theorem witness_MemWriteStoresOneCellAndKeepsTheRest :
    (Memory.ofImage [5, 6, 7]).wf = true ∧ ((0 : Int) ≤ 2 ∧ overCapacity small (Int.toNat 2) = false ∧
      Int.toNat 2 < (Memory.ofImage [5, 6, 7]).extent) ∧
    ((0 : Int) ≤ 7 ∧ overCapacity small (Int.toNat 7) = false ∧ (Memory.ofImage [5, 6, 7]).extent ≤ Int.toNat 7) ∧
    (small.memMax = some 8 ∧ (Memory.ofImage [5, 6, 7]).extent ≤ 8) ∧ (6 : Int) ≠ 7 := by decide

theorem witness_MemWriteFaultsOnBadAddresses :
    (-1 : Int) < 0 ∧ ((0 : Int) ≤ 8 ∧ small.memMax = some 8 ∧ ((8 : Nat) : Int) ≤ 8) := by decide

theorem witness_EveryGrowthPolicyMakesRoom :
    overCapacity { small with grow := .implementation 1 } 7 = false ∧ small.memMax = some 8 ∧
    (Config.defaults.grow = .direct ∧ Config.defaults.memMax = none) ∧
    ({ Config.defaults with grow := .doubling }.grow = .doubling) := by decide

theorem witness_OperationNumbersSelectTheKinds :
    decodeOpcode 22299 = .ok ⟨.halt, .relative, .relative, .relative⟩ ∧ (0 : Int) ≤ 22299 ∧
    opKind (Int.toNat 98 % 100) = none ∧ opKind (Int.toNat 99) = some .halt := by decide

theorem witness_OpcodeIntegersRoundTrip :
    decodeOpcode 22299 = .ok ⟨.halt, .relative, .relative, .relative⟩ ∧
    decodeOpcode 1 = .ok ⟨.add, .address, .address, .address⟩ := by decide

theorem witness_InstructionsRoundTrip :
    decode [104] = .ok (.output (imm 0) .address .address) ∧
    decode [1002, 4, 3, 4, 33] = .ok (.multiply (adr 4) (imm 3) (adr 4)) := by decide

theorem witness_UnusedModeSlotsHaveNoEffect : (rel 0).mode ≠ .immediate := by decide

/-- SourceOperandsResolveByMode and DestinationOperandsResolveByMode: 32766 + 1 is the greatest `Int` of 16 bits, one more is none. -/
theorem witness_OperandsResolveByMode :
    fits (smallMachine 0 32766).cfg.width ((smallMachine 0 32766).bp + 1) = true ∧
    fits (smallMachine 0 32766).cfg.width ((smallMachine 0 32766).bp + 2) = false := by decide

/-- AddStoresTheExactSum, MultiplyStoresTheExactProduct, LessThanStoresOneOrZero, EqualStoresOneOrZero, the effect: the greatest results that fit, into the last cell, at the last `ip`. -/
theorem witness_F3Rule_effect :
    (smallMachine 32763 0).mem.wf = true ∧ resolveValue (smallMachine 32763 0) (imm 32766) = .ok 32766 ∧
    resolveValue (smallMachine 32763 0) (imm 1) = .ok 1 ∧ resolveValue (smallMachine 32763 0) (adr 1) = .ok (-1) ∧
    (∀ v, v ∈ ([20001, 21101, 20002, 21102, 20007, 20008] : List Int) →
      resolveAddress v (smallMachine 32763 0) (rel 7) = .ok 7) ∧
    overCapacity (smallMachine 32763 0).cfg (Int.toNat 7) = false ∧
    fits (smallMachine 32763 0).cfg.width (32766 + 1) = true ∧
    fits (smallMachine 32763 0).cfg.width (32766 * 1) = true ∧
    fits (smallMachine 32763 0).cfg.width ((smallMachine 32763 0).ip + 4) = true := by decide

/-- The same four statements, the exceptions: each disjunct of F3Fault is met by some state and operands. -/
theorem witness_F3Rule_exceptions :
    F3Fault 11101 (fun a b => a + b) true (imm 1) (imm 1) (imm 0) (smallMachine 0 0) (.addressingError 11101) ∧
    F3Fault 1001 (fun a b => a + b) true (adr (-1)) (imm 1) (adr 0) (smallMachine 0 0) (.negativeAddress (-1)) ∧
    F3Fault 2101 (fun a b => a + b) true (imm 1) (rel (-1)) (adr 0) (smallMachine 0 0) (.negativeAddress (-1)) ∧
    F3Fault 1101 (fun a b => a + b) true (imm 1) (imm 1) (adr (-7)) (smallMachine 0 0) (.negativeAddress (-7)) ∧
    F3Fault 1107 (fun a b => if a < b then 1 else 0) false (imm 1) (imm 1) (adr 8) (smallMachine 0 0)
      (.outOfMemory 8) ∧
    F3Fault 1102 (fun a b => a * b) true (imm 32767) (imm 2) (adr 0) (smallMachine 0 0) .overflow ∧
    F3Fault 1108 (fun a b => if a = b then 1 else 0) false (imm 1) (imm 1) (adr 0) (smallMachine 32764 0)
      .overflow := by
  refine ⟨.inl ⟨rfl, rfl⟩, .inr (.inl rfl), .inr (.inr (.inl rfl)), .inr (.inr (.inr (.inl ⟨by decide, rfl⟩))),
    .inr (.inr (.inr (.inr (.inl ⟨8, rfl, by decide, rfl⟩)))),
    .inr (.inr (.inr (.inr (.inr (.inl ⟨32767, 2, rfl, rfl, rfl, by decide, rfl⟩))))),
    .inr (.inr (.inr (.inr (.inr (.inr ⟨by decide, rfl⟩)))))⟩

theorem witness_BinaryInstructionsReportTheFirstCause :
    encodeOpcode (Instr.add (imm 1) (imm 1) (imm 0)).opCode = 11101 ∧ (imm 0).mode = .immediate ∧
    (adr 8).mode ≠ .immediate ∧ resolveValue (smallMachine 0 0) (adr (-1)) = .error (.negativeAddress (-1)) ∧
    resolveValue (smallMachine 0 0) (imm 1) = .ok 1 ∧
    resolveAddress 1101 (smallMachine 0 0) (adr (-7)) = .error (.negativeAddress (-7)) ∧
    (resolveAddress 1101 (smallMachine 0 0) (adr 8) = .ok 8 ∧
      overCapacity (smallMachine 0 0).cfg (Int.toNat 8) = true) := by decide

theorem witness_ImmediateDestinationsAreRejectedFirst :
    (Instr.input (imm 5) .address .address).destIsCell = false ∧
    ((Instr.output (adr (-1)) .address .address).destIsCell = true ∧ (smallMachine 0 0).status = .running ∧
      ∃ t, exec (.output (adr (-1)) .address .address) (smallMachine 0 0) = .next t ∧ t.status = .faulted) :=
  ⟨by decide, by decide, by decide, _, rfl, rfl⟩

/-- The queue `q` in the machine of 16 bits. -/
def withInput (q : List InItem) (ip : Int) : State := { smallMachine ip 0 with inQ := q }

theorem witness_InputStoresTheNextValue :
    (withInput [.value 9] 32765).mem.wf = true ∧
    3 = ((3 + 100 * digitOf (adr 7).mode + 1000 * digitOf .address + 10000 * digitOf .address : Nat) : Int) ∧
    resolveAddress 3 (withInput [.value 9] 32765) (adr 7) = .ok 7 ∧
    overCapacity (withInput [.value 9] 32765).cfg (Int.toNat 7) = false ∧
    fits (withInput [.value 9] 32765).cfg.width ((withInput [.value 9] 32765).ip + 2) = true ∧
    (withInput [.value 9] 32765).inQ = .value 9 :: [] := by decide

theorem witness_InputChecksItsDestinationBeforeTheQueue :
    encodeOpcode ⟨.input, (adr 8).mode, .address, .address⟩ = 3 ∧
    resolveAddress 3 (withInput [] 0) (adr (-1)) = .error (.negativeAddress (-1)) ∧
    (resolveAddress 3 (withInput [] 0) (adr 8) = .ok 8 ∧ overCapacity (withInput [] 0).cfg (Int.toNat 8) = true) ∧
    (resolveAddress 3 (withInput [] 32766) (adr 7) = .ok 7 ∧
      overCapacity (withInput [] 32766).cfg (Int.toNat 7) = false ∧
      fits (withInput [] 32766).cfg.width ((withInput [] 32766).ip + 2) = false) := by decide

theorem witness_InputHoldsOnNothingAndFaultsOnBadItems :
    (resolveAddress (encodeOpcode ⟨.input, (adr 7).mode, .address, .address⟩) (withInput [] 0) (adr 7) = .ok 7 ∧
      overCapacity (withInput [] 0).cfg (Int.toNat 7) = false ∧
      fits (withInput [] 0).cfg.width ((withInput [] 0).ip + 2) = true ∧ (withInput [] 0).inQ = []) ∧
    (withInput [.unparseable, .value 1] 0).inQ = .unparseable :: [.value 1] ∧
    (withInput [.transportFailed] 0).inQ = .transportFailed :: [] := by decide

/-- The machine of 16 bits with a sink that has given the answers `q` and is silent after them. -/
def withSink (q : List SinkAnswer) (ip : Int) : State := { smallMachine ip 0 with sinkQ := q, sinkRest := none }

theorem witness_OutputAppendsWhatTheSinkAccepts :
    (resolveValue (withSink [] 32765) (adr 3) = .ok 32767 ∧
      fits (withSink [] 32765).cfg.width ((withSink [] 32765).ip + 2) = true) ∧
    nextAnswer (withSink [.accepted] 0) = some (.accepted, []) ∧ nextAnswer State.reset = some (.accepted, []) ∧
    nextAnswer (withSink [.sinkFailed] 0) = some (.sinkFailed, []) ∧ nextAnswer (withSink [] 32765) = none := by decide

theorem witness_OutputFaultsBeforeItOffers :
    resolveValue (withSink [] 0) (rel (-1)) = .error (.negativeAddress (-1)) ∧
    (resolveValue (withSink [] 32766) (imm 1) = .ok 1 ∧
      fits (withSink [] 32766).cfg.width ((withSink [] 32766).ip + 2) = false) := by decide

theorem witness_AnAcceptingSinkNeverHolds_state :
    SinkAccepts (machine [104, 5] 0 0 []) ∧ ∃ t, step (machine [104, 5] 0 0 []) = .next t :=
  ⟨⟨by decide, rfl⟩, _, rfl⟩

/-- A run from `JT #1, #0`, which jumps to itself forever. -/
theorem witness_AnAcceptingSinkNeverHolds_run :
    IsRun (fun _ => .step) (fun _ => machine [1105, 1, 0] 0 0 []) ∧
    SinkAcceptsAlong (fun _ => machine [1105, 1, 0] 0 0 []) ∧ (machine [1105, 1, 0] 0 0 []).status = .running :=
  have h : (machine [1105, 1, 0] 0 0 []).heldForOutput = false := by decide
  have hs : after (step (machine [1105, 1, 0] 0 0 [])) = some (machine [1105, 1, 0] 0 0 []) := by decide
  have hq : (machine [1105, 1, 0] 0 0 []).sinkQ = [] := rfl
  ⟨fun _ => next_of_after hs,
    ⟨fun _ => ⟨fun a ha => (nomatch hq ▸ ha), fun h => (nomatch h)⟩, fun n _ => ⟨n, le_refl n, h⟩⟩, rfl⟩

/-- JumpIfTrueJumpsOnNonzero and JumpIfFalseJumpsOnZero: taken, not taken, and not taken at the last `ip`. -/
theorem witness_JumpsJump :
    resolveValue (smallMachine 32764 0) (adr 1) = .ok (-1) ∧ (-1 : Int) ≠ 0 ∧
    resolveValue (smallMachine 32764 0) (adr 2) = .ok 0 ∧ resolveValue (smallMachine 32764 0) (imm (-3)) = .ok (-3) ∧
    fits (smallMachine 32764 0).cfg.width ((smallMachine 32764 0).ip + 3) = true ∧
    resolveValue (smallMachine 32765 0) (adr 2) = .ok 0 ∧
    fits (smallMachine 32765 0).cfg.width ((smallMachine 32765 0).ip + 3) = false := by decide

theorem witness_JumpOperandsFaultAsLazinessSays :
    resolveValue (smallMachine 0 0) (adr (-1)) = .error (.negativeAddress (-1)) ∧
    (resolveValue (smallMachine 0 0) (imm 1) = .ok 1 ∧ (1 : Int) ≠ 0 ∧
      (smallMachine 0 0).cfg.lazyJumpTarget = false) ∧
    (resolveValue (machineIn lazyTarget [105, 0, -1, 99] 0 0) (imm 0) = .ok 0 ∧
      resolveValue (machineIn lazyTarget [105, 0, -1, 99] 0 0) (adr (-1)) = .error (.negativeAddress (-1)) ∧
      ¬ (0 : Int) ≠ 0 ∧ lazyTarget.lazyJumpTarget = true ∧ fits lazyTarget.width (0 + 3) = true) ∧
    (resolveValue (machineIn { small with lazyJumpTarget := true } [] 32765 0) (imm 0) = .ok 0 ∧
      resolveValue (machineIn { small with lazyJumpTarget := true } [] 32765 0) (adr (-1)) =
        .error (.negativeAddress (-1)) ∧
      fits small.width (32765 + 3) = false) := by decide

theorem witness_AdjustBaseAddsToTheBase :
    (resolveValue (smallMachine 0 0) (adr 3) = .ok 32767 ∧ fits small.width (0 + 32767) = true ∧
      fits small.width (0 + 2) = true) ∧
    resolveValue (smallMachine 0 0) (rel (-1)) = .error (.negativeAddress (-1)) ∧
    (resolveValue (smallMachine 0 1) (imm 32767) = .ok 32767 ∧
      fits (smallMachine 0 1).cfg.width ((smallMachine 0 1).bp + 32767) = false) ∧
    (resolveValue (smallMachine 32766 0) (imm 1) = .ok 1 ∧
      fits (smallMachine 32766 0).cfg.width ((smallMachine 32766 0).ip + 2) = false) := by decide

theorem witness_HaltDeliversCellZero :
    (smallMachine 0 0).cfg.haltAdvancesIp = false ∧
    (haltAdvances.haltAdvancesIp = true ∧ fits haltAdvances.width (0 + 1) = true) ∧
    ({ small with haltAdvancesIp := true }.haltAdvancesIp = true ∧ fits small.width (32767 + 1) = false) ∧
    ((smallMachine 0 0).status = .running ∧
      ∃ t, exec (.halt .address .address .address) (smallMachine 0 0) = .next t ∧ t.status = .halted) :=
  ⟨by decide, by decide, by decide, by decide, _, rfl, rfl⟩

theorem witness_ResultIsCellZeroAndShownOnlyWhileHalted :
    (machine [99] 0 0 []).status ≠ .halted ∧
    (∃ t, step (machine [99] 0 0 []) = .next t ∧ t.result ≠ (machine [99] 0 0 []).result ∧ t.status = .halted) ∧
    ∃ t, (machine [99] 0 0 []).load [7] = .next t :=
  ⟨by decide, ⟨_, rfl, by decide, rfl⟩, _, rfl⟩

theorem witness_RaiseRecordsCauseAndDetail :
    (State.reset.status = .idle ∧ State.reset.cause = .none ∧ State.reset.causeInfo = 0) ∧
    ((machine [99] 0 0 []).status = .running ∧ (machine [99] 0 0 []).cause = .none ∧
      (machine [99] 0 0 []).causeInfo = 0) ∧
    ∃ t, step (machine [99] 0 0 []) = .next t ∧ t.status = .halted ∧ t.cause = .none ∧ t.causeInfo = 0 :=
  ⟨by decide, by decide, _, rfl, rfl, rfl, rfl⟩

/-- The faulting step of each kind: at a fetch, at a bad item, at a failing sink. -/
theorem witness_FaultsHaveNoPartialEffect :
    (∃ t, step (machine [33] 0 0 []) = .next t ∧ t.status = .faulted) ∧
    (∃ t, step (machine [3, 0] 0 0 [.unparseable]) = .next t ∧ t.status = .faulted) ∧
    (∃ t, step { machine [4, 0] 0 0 [] with sinkQ := [.sinkFailed] } = .next t ∧ t.status = .faulted) :=
  ⟨⟨_, rfl, rfl⟩, ⟨_, rfl, rfl⟩, _, rfl, rfl⟩

theorem witness_EndedRunsStayEnded :
    { machine [99] 0 0 [] with status := .halted, result := some 99 }.ended = true ∧
    (raise .overflow (machine [99] 0 0 [])).ended = true ∧
    ∃ t, act (.supply (.value 1)) (raise .overflow (machine [99] 0 0 [])) = .next t :=
  ⟨by decide, by decide, _, rfl⟩

/-- Cells beyond the extent read 0: an ADD whose literals lie beyond the memory, at the last `ip` that fits. -/
theorem witness_StepRunsTheDecodedInstruction :
    (machine [1] 0 0 []).status = .running ∧ 0 ≤ (machine [1] 0 0 []).ip ∧
    (∀ k : Nat, 1 ≤ k → k ≤ (Instr.add (adr 0) (adr 0) (adr 0)).opCode.kind.arity →
      fits (machine [1] 0 0 []).cfg.width ((machine [1] 0 0 []).ip + k) = true) ∧
    decode [readCell (machine [1] 0 0 []).mem 0, readCell (machine [1] 0 0 []).mem 1,
      readCell (machine [1] 0 0 []).mem 2, readCell (machine [1] 0 0 []).mem 3] =
        .ok (.add (adr 0) (adr 0) (adr 0)) :=
  ⟨rfl, by decide, fun _ _ _ => rfl, rfl⟩

theorem witness_FetchOutsideMemoryFaults :
    ((machine [99] (-1) 0 []).status = .running ∧ (machine [99] (-1) 0 []).ip < 0) ∧
    ((machine [99] 1 0 []).status = .running ∧ 0 ≤ (machine [99] 1 0 []).ip ∧
      (machine [99] 1 0 []).mem.extent ≤ (machine [99] 1 0 []).ip.toNat) := by decide

theorem witness_MalformedOpcodesFault :
    (machine [100000] 0 0 []).status = .running ∧
    memRead (machine [100000] 0 0 []).mem (machine [100000] 0 0 []).ip = .ok 100000 ∧
    decodeOpcode 100000 = .error (.malformed 100000) := by decide

/-- The opcode integer in the last cell that a 16-bit `ip` can name; memory is not bounded here. -/
def atTheEdge : State :=
  { machineIn width16 [] 32767 0 with mem := { cells := [(32767, 104)], extent := 32768 } }

theorem witness_LiteralAddressesOverflowBeforeAddressing :
    atTheEdge.status = .running ∧ memRead atTheEdge.mem atTheEdge.ip = .ok 104 ∧
    decodeOpcode 104 = .ok ⟨.output, .immediate, .address, .address⟩ ∧ 1 ≤ Kind.output.arity ∧
    fits atTheEdge.cfg.width (atTheEdge.ip + 1) = false := by decide

theorem witness_AnInputHoldLastsUntilAnItemComes :
    (machine [3, 0] 0 0 []).heldForInput = true ∧ (machine [3, 0] 0 0 []).mem.wf = true ∧
    fits (machine [3, 0] 0 0 []).cfg.width 7 = true := by decide

theorem witness_AnOutputHoldLastsUntilTheSinkAnswers :
    { machine [104, 5] 0 0 [] with sinkRest := none }.heldForOutput = true := by decide

theorem witness_EveryStepKeepsTheMachineInvariant :
    (smallMachine 0 0).inv = true ∧ (∃ t, step (smallMachine 0 0) = .next t) ∧
    (machine [1101, 1, 1, 5, 99] 0 0 []).inv = true ∧ ∃ t, step (machine [1101, 1, 1, 5, 99] 0 0 []) = .next t :=
  ⟨by decide, ⟨_, rfl⟩, by decide, _, rfl⟩

theorem witness_HostActionsKeepTheMachineInvariant :
    State.reset.inv = true ∧ (∃ t, act (.load [1, 0, 0, 0, 99]) State.reset = .next t) ∧
    (∃ t, act (.poke 9 5) State.reset = .next t) ∧ ∃ t, act (.supplyLine (some ['5'])) State.reset = .next t :=
  ⟨by decide, ⟨_, rfl⟩, ⟨_, rfl⟩, _, rfl⟩

theorem witness_OnlyAdjustBaseChangesTheBase :
    ∃ t, step (machine [109, 5] 0 0 []) = .next t ∧ t.bp ≠ (machine [109, 5] 0 0 []).bp :=
  ⟨_, rfl, by decide⟩

/-- OnlyInputAndOutputTouchTheChannels, AStepWritesOnlyItsDestinationCell, TheExtentNeverShrinks, ParametersAreFixed:
a step that takes an item, one that emits, one that stores beyond the extent. -/
theorem witness_steps :
    (∃ t, step (machine [3, 0] 0 0 [.value 7]) = .next t ∧ t.inQ ≠ [.value 7]) ∧
    (∃ t, step (machine [104, 5] 0 0 []) = .next t ∧ t.out ≠ []) ∧
    (machine [1101, 1, 1, 9] 0 0 []).mem.wf = true ∧
    ∃ t, step (machine [1101, 1, 1, 9] 0 0 []) = .next t ∧ t.mem.extent ≠ 4 ∧ t.mem ≠ (machine [1101, 1, 1, 9] 0 0 []).mem :=
  ⟨⟨_, rfl, by decide⟩, ⟨_, rfl, by decide⟩, by decide, _, rfl, by decide, by decide⟩

/-- Two machines that differ in the extent and the growth policy. -/
theorem witness_TheExtentCannotBeObserved :
    (machine [1101, 1, 1, 9] 0 0 []).mem.wf = true ∧
    EqUpToExtent (machine [1101, 1, 1, 9] 0 0 [])
      (machineIn { Config.defaults with grow := .doubling } [1101, 1, 1, 9, 0, 0] 0 0) ∧
    (machineIn { Config.defaults with grow := .doubling } [1101, 1, 1, 9, 0, 0] 0 0).mem.wf = true ∧
    ∃ t, step (machine [1101, 1, 1, 9] 0 0 []) = .next t :=
  ⟨by decide, rfl, by decide, _, rfl⟩

/-- The stream 5, Unparseable, then TransportFailed forever, each item supplied while the machine is IDLE. -/
def streamItem (i : Nat) : InItem := [InItem.value 5, .unparseable].getD i .transportFailed
def supplying (n : Nat) : Event := .host (.supply (streamItem n))
def supplied (n : Nat) : State := State.reset.setInQ ((List.range n).map streamItem)

theorem queuedItem_streamItem (n : Nat) : queuedItem State.reset.cfg (streamItem n) = streamItem n := by
  match n with
  | 0 => rfl
  | 1 => rfl
  | _ + 2 => rfl

theorem itemsBy_supplying (n : Nat) : itemsBy supplying (supplied 0) n = (List.range n).map streamItem := by
  have (k : Nat) : (supplying k).items State.reset.cfg = [streamItem k] := by
    show [queuedItem State.reset.cfg (streamItem k)] = _
    rw [queuedItem_streamItem]
  show [] ++ (List.range n).flatMap (fun k => (supplying k).items State.reset.cfg) = _
  simp [this, ← List.map_eq_flatMap]

/-- A run, a closed stream that is not all values, and an item waiting. -/
theorem witness_InputsComeInTheOrderTheHostSuppliesThem_closed :
    IsRun supplying supplied ∧ InputsAreClosed supplying (supplied 0) [.value 5, .unparseable] ∧
    (supplied 2).inQ = .value 5 :: [.unparseable] := by
  refine ⟨fun n => ?_, ⟨fun n i item h => ?_, fun i => ⟨i + 1, ?_⟩⟩, rfl⟩
  · show Host.Outcome.next ((supplied n).supply (streamItem n)) = .next (supplied (n + 1))
    rw [State.supply, show (supplied n).cfg = State.reset.cfg from rfl, queuedItem_streamItem]
    simp [supplied, State.setInQ, List.range_succ]
  · rw [itemsBy_supplying] at h
    obtain ⟨j, hj, rfl⟩ := Option.map_eq_some_iff.mp (List.getElem?_map.symm.trans h)
    rw [List.getElem?_range] at hj
    · cases hj; rfl
    · by_contra hi
      rw [List.getElem?_eq_none (by simpa using hi)] at hj
      cases hj
  · rw [itemsBy_supplying]; simp

/-- A run and an open, silent stream: everything is in the queue from the start. -/
theorem witness_InputsComeInTheOrderTheHostSuppliesThem_open :
    IsRun (fun _ => .step) (fun _ => State.reset.setInQ [.value 5, .unparseable]) ∧
    InputsAreOpen (fun _ => .step) (State.reset.setInQ [.value 5, .unparseable]) [.value 5, .unparseable] ∧
    (State.reset.setInQ [.value 5, .unparseable]).inQ = .value 5 :: [.unparseable] := by
  have h (n : Nat) : itemsBy (fun _ => .step) (State.reset.setInQ [.value 5, .unparseable]) n =
      [.value 5, .unparseable] := by simp [itemsBy, Event.items]
  exact ⟨fun _ => rfl, ⟨fun n => by rw [h], 0, h 0⟩, rfl⟩

end Sys2Proof.Tests
end

/-! ### The register RESULT and the port that shows it (10_state.md R29) -/

namespace Sys2Proof.Machine

theorem State.resultPort_of_halted {s : State} (h : s.status = .halted) : s.resultPort = s.result := by
  simp only [State.resultPort, h]

theorem State.resultPort_of_ne_halted {s : State} (h : s.status ≠ .halted) : s.resultPort = none := by
  cases hs : s.status with
  | halted => exact absurd hs h
  | idle => simp only [State.resultPort, hs]
  | running => simp only [State.resultPort, hs]
  | faulted => simp only [State.resultPort, hs]

/-- An image that is accepted gives exactly the reset state of R37, with the host's queue and sink kept (R260, R262). -/
theorem State.load_eq_next {s t : State} {image : List Int} :
    s.load image = .next t ↔
      imageFitsMemory s.cfg image = true ∧ image.all (fits s.cfg.width) = true ∧
      t = { cfg := s.cfg, mem := Memory.ofImage image, ip := 0, bp := 0, status := .idle, cause := .none,
            causeInfo := 0, result := none, inQ := s.inQ, out := [], sinkQ := s.sinkQ, sinkRest := s.sinkRest } := by
  cases hm : imageFitsMemory s.cfg image
  · simp [State.load, hm]
  · cases hf : image.all (fits s.cfg.width)
    · simp [State.load, hm, hf]
    · simp [State.load, hm, hf, eq_comm]

/-- Only the effect of Halt writes RESULT (R29, R211). -/
theorem Effect.result_eq_or_halt {i : Instr} {s t : State} (h : Effect i s t) :
    t.result = s.result ∨
      (∃ u1 u2 u3, i = .halt u1 u2 u3) ∧ t.status = .halted ∧ t.result = some (readCell s.mem 0) := by
  cases h with
  | halted u1 u2 u3 n hi hn => exact .inr ⟨⟨u1, u2, u3, hi⟩, rfl, rfl⟩
  | _ => exact .inl rfl

/-- A step that changes RESULT executes a Halt, which puts the integer of cell 0 in it (R29). -/
theorem step_result_ne {s t : State} (h : step s = .next t) (hne : t.result ≠ s.result) :
    (∃ u1 u2 u3, fetchInstr s = .ok (.halt u1 u2 u3)) ∧ s.status = .running ∧ t.status = .halted ∧
      t.result = some (readCell s.mem 0) := by
  rcases step_cases h with ⟨-, rfl⟩ | ⟨-, f, -, rfl⟩ | ⟨hs, i, hi, he⟩
  · exact absurd rfl hne
  · exact absurd (raise_result s f) hne
  · obtain ⟨⟨u1, u2, u3, rfl⟩, ht, hr⟩ := he.result_eq_or_halt.resolve_left hne
    exact ⟨⟨u1, u2, u3, hi⟩, hs, ht, hr⟩

/-- Settles O58: the port is read off by status, a step writes RESULT only through Halt (`step_result_ne`), and `load`
leaves it empty in an IDLE machine. -/
theorem resultIsCellZeroAndShownOnlyWhileHalted : Obligations.ResultIsCellZeroAndShownOnlyWhileHalted := by
  intro s t
  refine ⟨State.resultPort_of_ne_halted, State.resultPort_of_halted, fun h hne => ?_, fun image h => ?_⟩
  · obtain ⟨hi, hs, ht, hr⟩ := step_result_ne h hne
    exact ⟨hi, hs, ht, (State.resultPort_of_halted ht).trans hr⟩
  · obtain ⟨-, -, rfl⟩ := State.load_eq_next.mp h
    exact ⟨rfl, rfl⟩

end Sys2Proof.Machine

/-! ### Reading memory (20_memory.md R53) -/

namespace Sys2Proof.Machine

theorem readCell_of_lt_extent {m : Memory} {a : Nat} (h : a < m.extent) : readCell m a = lookup m.cells a := by
  rw [readCell, if_pos h]

theorem readCell_of_extent_le {m : Memory} {a : Nat} (h : m.extent ≤ a) : readCell m a = 0 := by
  rw [readCell, if_neg (Nat.not_lt.mpr h)]

/-- Settles O8: the sign of the address decides between the fault and a value, and the value is the cell's integer on
one side of the extent and 0 on the other. -/
theorem memReadFollowsItsThreeCases : Obligations.MemReadFollowsItsThreeCases := by
  intro m a
  refine ⟨fun hneg => ?_, fun h0 hbeyond => ?_, fun h0 hbelow => ?_⟩
  · exact memRead_eq_error.mpr ⟨hneg, rfl⟩
  · exact memRead_eq_ok.mpr ⟨h0, (readCell_of_extent_le hbeyond).symm⟩
  · exact memRead_eq_ok.mpr ⟨h0, (readCell_of_lt_extent hbelow).symm⟩

end Sys2Proof.Machine

/-! ### The table of operation numbers and the decoder's answers (40_decoder.md R84, R110, R111) -/

namespace Sys2Proof.Machine

@[simp] theorem opKind_opNum (k : Kind) : opKind (opNum k) = some k := by
  cases k <;> rfl

/-- `OpKind` is defined on the ten operation numbers only, and is the inverse of `OpNum` there (R111). -/
theorem opKind_eq_some {n : Nat} {k : Kind} : opKind n = some k ↔ n = opNum k := by
  constructor
  · intro h
    unfold opKind at h
    split at h <;> cases h <;> rfl
  · rintro rfl
    exact opKind_opNum k

theorem opNum_lt_hundred (k : Kind) : opNum k < 100 := by
  cases k <;> decide

/-- The integers `Decode` accepts, and with what (R110). -/
theorem decodeOpcode_eq_ok {v : Int} {c : OpCode} :
    decodeOpcode v = .ok c ↔
      0 ≤ v ∧ v < 100000 ∧ opKind (v.toNat % 100) = some c.kind ∧ modeOf (dig v.toNat 2) = some c.m1 ∧
      modeOf (dig v.toNat 3) = some c.m2 ∧ modeOf (dig v.toNat 4) = some c.m3 := by
  constructor
  · intro h
    unfold decodeOpcode at h
    split at h
    · cases h
    split at h
    · cases h
    split at h
    · next hk h1 h2 h3 =>
      cases h
      exact ⟨by omega, by omega, hk, h1, h2, h3⟩
    · cases h
  · rintro ⟨h0, hlt, hk, h1, h2, h3⟩
    have hneg : ¬ v < 0 := by omega
    have hsix : ¬ v.toNat / 100000 ≠ 0 := by omega
    simp only [decodeOpcode, if_neg hneg, if_neg hsix, hk, h1, h2, h3]

/-- `Decode` refuses in one way only, naming the integer it was given (R110, R113). -/
theorem decodeOpcode_eq_malformed {v : Int} :
    decodeOpcode v = .error (.malformed v) ↔ ∀ c, decodeOpcode v ≠ .ok c := by
  constructor
  · intro h c hc
    rw [h] at hc
    cases hc
  · intro h
    unfold decodeOpcode at h ⊢
    split_ifs at h ⊢
    · rfl
    · rfl
    split at h
    · exact absurd rfl (h _)
    · rfl

theorem dig_eq_zero_of_lt {n i : Nat} (h : n < 10 ^ i) : dig n i = 0 := by
  rw [dig, Nat.div_eq_of_lt h]

/-- An operation number is an opcode integer, whose three mode digits are 0: Address (R82, R87). -/
theorem decodeOpcode_opNum (k : Kind) :
    decodeOpcode (opNum k) = .ok ⟨k, .address, .address, .address⟩ := by
  have hlt := opNum_lt_hundred k
  have hmode (i : Nat) (hi : 2 ≤ i) : modeOf (dig (opNum k) i) = some .address := by
    rw [dig_eq_zero_of_lt (hlt.trans_le (Nat.pow_le_pow_right (n := 10) (by decide) hi))]
    rfl
  rw [decodeOpcode_eq_ok, Int.toNat_natCast, Nat.mod_eq_of_lt hlt]
  exact ⟨by omega, by omega, opKind_opNum k, hmode 2 (by decide), hmode 3 (by decide), hmode 4 (by decide)⟩

/-- The table of R111 as its ten rows. -/
def opTable : List (Nat × Kind) :=
  [(1, .add), (2, .multiply), (3, .input), (4, .output), (5, .jumpIfTrue), (6, .jumpIfFalse),
    (7, .testLessThan), (8, .testEqual), (9, .adjustBase), (99, .halt)]

/-- The rows of the table are the kinds with their operation numbers. -/
theorem mem_opTable {n : Nat} {k : Kind} : (n, k) ∈ opTable ↔ n = opNum k := by
  cases k <;> simp [opTable, opNum]

/-- Settles O57: a row of the table is a kind with its operation number (`mem_opTable`), on which alone `OpKind` is
defined (`opKind_eq_some`); what decodes has a remainder in the table, and the number of a row decodes by
`decodeOpcode_opNum`. -/
theorem operationNumbersSelectTheKinds : Obligations.OperationNumbersSelectTheKinds := by
  have hkind (v : Int) (c : OpCode) (h : decodeOpcode v = .ok c) : (v.toNat % 100, c.kind) ∈ opTable := by
    obtain ⟨-, -, hk, -⟩ := decodeOpcode_eq_ok.mp h
    exact mem_opTable.mpr (opKind_eq_some.mp hk)
  refine ⟨opTable, rfl, fun n k _ => opKind_eq_some.trans mem_opTable.symm, fun v h0 => ⟨hkind v, fun hout => ?_,
    fun k hrow => ?_⟩⟩
  · exact decodeOpcode_eq_malformed.mpr fun c hc => hout c.kind (hkind v c hc)
  · have hv : v = opNum k := by rw [← mem_opTable.mp hrow, Int.toNat_of_nonneg h0]
    rw [hv]
    exact decodeOpcode_opNum k

end Sys2Proof.Machine

/-! ### Source operands by mode (41_operand_resolver.md R130, R131) -/

namespace Sys2Proof.Machine

theorem relativeAddress_eq_ok {s : State} {lit a : Int} :
    relativeAddress s lit = .ok a ↔ fits s.cfg.width (s.bp + lit) = true ∧ a = s.bp + lit := narrow_eq_ok

@[simp] theorem resolveValue_immediate (s : State) (lit : Int) : resolveValue s ⟨.immediate, lit⟩ = .ok lit := rfl

@[simp] theorem resolveValue_address (s : State) (lit : Int) :
    resolveValue s ⟨.address, lit⟩ = memRead s.mem lit := rfl

/-- A Relative source is read at its address, once that is an `Int` (R131). -/
theorem resolveValue_relative {s : State} {lit a : Int} (h : relativeAddress s lit = .ok a) :
    resolveValue s ⟨.relative, lit⟩ = memRead s.mem a := by
  simp only [resolveValue, h]
  rfl

/-- Settles O18: Immediate and Address by the definition; for Relative the width decides between a read at the address
(`relativeAddress_eq_ok`) and the Overflow among the faults of a source (`resolveValue_eq_error`). -/
theorem sourceOperandsResolveByMode : Obligations.SourceOperandsResolveByMode := by
  intro s lit
  refine ⟨resolveValue_immediate s lit, resolveValue_address s lit, fun hfits => ?_, fun hout => ?_⟩
  · exact resolveValue_relative (relativeAddress_eq_ok.mpr ⟨hfits, rfl⟩)
  · exact resolveValue_eq_error.mpr (.inr (.inl ⟨rfl, hout, rfl⟩))

end Sys2Proof.Machine

/-! ### Fetching an opcode integer that does not decode (42_execution_loop.md R154) -/

namespace Sys2Proof.Machine

theorem decodeOpcode_error {v : Int} {e : DecodeFailure} (h : decodeOpcode v = .error e) : e = .malformed v := by
  have hm : decodeOpcode v = .error (.malformed v) := decodeOpcode_eq_malformed.mpr fun c hc => by
    rw [h] at hc
    cases hc
  exact Except.error.inj (h.symm.trans hm)

theorem decodePhase_error {v : Int} {e : DecodeFailure} (h : decodeOpcode v = .error e) :
    decodePhase v = .error (.decodeError v) := by
  obtain rfl := decodeOpcode_error h
  simp only [decodePhase, h]

/-- A fetch whose opcode integer does not decode ends there: no literal is fetched (R113, R154). -/
theorem fetchInstr_malformed {s : State} {v : Int} {e : DecodeFailure} (hv : memRead s.mem s.ip = .ok v)
    (h : decodeOpcode v = .error e) : fetchInstr s = .error (.decodeError v) :=
  except_bind_eq_error.mpr (.inr ⟨v, hv, except_bind_eq_error.mpr (.inl (decodePhase_error h))⟩)

/-- Settles O42: the fetch faults with the integer it read (`fetchInstr_malformed`), and a RUNNING machine takes the
fault of a fetch in the state it started from (`step_fetch_fault`). -/
theorem malformedOpcodesFault : Obligations.MalformedOpcodesFault := by
  intro s v e hs hv he
  exact step_fetch_fault hs (fetchInstr_malformed hv he)

end Sys2Proof.Machine

/-! ### A store's frame (20_memory.md R54, R55) -/

namespace Sys2Proof.Machine

/-- A store within the capacity changes the memory as R54 and R55 say, and nothing else. -/
theorem storedAt_storeCell {s : State} {d : Nat} (v : Int) (hwf : s.mem.wf = true)
    (hcap : overCapacity s.cfg d = false) : StoredAt s (s.setMem (storeCell s.cfg s.mem d v)) d v := by
  refine ⟨rfl, readCell_storeCell_same v hwf hcap, fun c hc => readCell_storeCell_other v hwf hcap hc,
    storeCell_extent_below v, fun hbeyond => ?_⟩
  have hext := storeCell_extent_beyond (cfg := s.cfg) v hbeyond
  exact ⟨hext, (growExtent_gt s.mem.extent hcap).trans_eq hext.symm⟩

end Sys2Proof.Machine

/-! ### The rule that the format F3 kinds share (43_arithmetic.md R170 to R172, 46_compare.md R200, R201) -/

namespace Sys2Proof.Machine

/-- The result of a format F3 kind: `f a b` computed exactly, checked against the width where it can overflow. -/
def f3Result (cfg : Config) (f : Int → Int → Int) (bounded : Bool) (a b : Int) : Except Fault Int :=
  if bounded then narrow cfg (f a b) else .ok (f a b)

section

variable {cfg : Config} {f : Int → Int → Int} {bounded : Bool} {a b v : Int} {e : Fault}

theorem f3Result_eq_ok :
    f3Result cfg f bounded a b = .ok v ↔ (bounded = true → fits cfg.width (f a b) = true) ∧ v = f a b := by
  cases bounded
  · simpa [f3Result] using eq_comm
  · simp [f3Result, narrow_eq_ok]

theorem f3Result_eq_error :
    f3Result cfg f bounded a b = .error e ↔ bounded = true ∧ fits cfg.width (f a b) = false ∧ e = .overflow := by
  cases bounded
  · simp [f3Result]
  · simp [f3Result, narrow_eq_error]

end

section

variable {f : Int → Int → Int} {bounded : Bool} {k : Kind} {o1 o2 o3 : Operand} {s : State}

/-- The fault that a format F3 kind takes is one that its rule lists. -/
theorem f3Fault_of_binaryToCell_error {e : Fault}
    (h : binaryToCell (f3Result s.cfg f bounded) k o1 o2 o3 s = .error e) :
    F3Fault (encodeOpcode ⟨k, o1.mode, o2.mode, o3.mode⟩) f bounded o1 o2 o3 s e := by
  rcases binaryToCell_eq_error.mp h with
    himm | ⟨hcell, h1 | ⟨a, ha, h2 | ⟨b, hb, h3 | ⟨d, -, hres | ⟨v, -, hnext⟩⟩⟩⟩⟩
  · exact .inl himm
  · exact .inr (.inl h1)
  · exact .inr (.inr (.inl h2))
  · rcases resolveDest_eq_error.mp h3 with haddr | hfull
    · exact .inr (.inr (.inr (.inl ⟨hcell, haddr⟩)))
    · exact .inr (.inr (.inr (.inr (.inl hfull))))
  · exact .inr (.inr (.inr (.inr (.inr (.inl ⟨a, b, ha, hb, f3Result_eq_error.mp hres⟩)))))
  · exact .inr (.inr (.inr (.inr (.inr (.inr hnext)))))

/-- A format F3 kind that completes has passed every check of its rule. -/
theorem not_f3Fault_of_binaryToCell_ok {t : State} {e : Fault}
    (h : binaryToCell (f3Result s.cfg f bounded) k o1 o2 o3 s = .ok t) :
    ¬ F3Fault (encodeOpcode ⟨k, o1.mode, o2.mode, o3.mode⟩) f bounded o1 o2 o3 s e := by
  obtain ⟨a, b, d, v, ha, hb, hd, hcap, hres, hnext, -⟩ := binaryToCell_eq_ok.mp h
  rintro (⟨himm, -⟩ | h1 | h2 | ⟨-, h3⟩ | ⟨d', hd', hfull, -⟩ | ⟨a', b', ha', hb', hbound, hout, -⟩ | ⟨hover, -⟩)
  · rcases resolveAddress_eq_ok.mp hd with ⟨-, ⟨hm, -⟩ | ⟨hm, -⟩⟩ <;> cases himm.symm.trans hm
  · cases ha.symm.trans h1
  · cases hb.symm.trans h2
  · cases hd.symm.trans h3
  · cases hd.symm.trans hd'
    cases hcap.symm.trans hfull
  · cases ha.symm.trans ha'
    cases hb.symm.trans hb'
    cases ((f3Result_eq_ok.mp hres).1 hbound).symm.trans hout
  · cases hnext.symm.trans hover

end

/-- An instruction with the cells and the effect of a format F3 kind obeys the rule of that kind: it completes with the
store of `binaryToCell_eq_ok`, and it faults exactly when some fault of the rule applies. -/
theorem f3Rule_of_exec_eq {mk : Operand → Operand → Operand → Instr} {f : Int → Int → Int} {bounded : Bool} (k : Kind)
    (hencode : ∀ o1 o2 o3,
      encode (mk o1 o2 o3) = [encodeOpcode ⟨k, o1.mode, o2.mode, o3.mode⟩, o1.lit, o2.lit, o3.lit])
    (hexec : ∀ o1 o2 o3 s,
      exec (mk o1 o2 o3) s = complete s (binaryToCell (f3Result s.cfg f bounded) k o1 o2 o3 s)) :
    F3Rule mk (opNum k) f bounded := by
  intro o1 o2 o3 s opcode hop
  obtain rfl : opcode = encodeOpcode ⟨k, o1.mode, o2.mode, o3.mode⟩ := hop
  refine ⟨hencode o1 o2 o3, fun a b d hwf ha hb hd hcap hfits hnext => ?_, fun ⟨e, he⟩ => ?_⟩
  · refine ⟨_, storedAt_storeCell (f a b) hwf hcap, ?_⟩
    rw [hexec, binaryToCell_eq_ok.mpr ⟨a, b, d, _, ha, hb, hd, hcap, f3Result_eq_ok.mpr ⟨hfits, rfl⟩, hnext, rfl⟩,
      complete_ok]
  · rw [hexec]
    cases hrun : binaryToCell (f3Result s.cfg f bounded) k o1 o2 o3 s with
    | ok t => exact absurd he (not_f3Fault_of_binaryToCell_ok hrun)
    | error e' => exact ⟨e', f3Fault_of_binaryToCell_error hrun, complete_error s e'⟩

theorem exec_add_eq (o1 o2 o3 : Operand) (s : State) :
    exec (.add o1 o2 o3) s =
      complete s (binaryToCell (f3Result s.cfg (fun a b => a + b) true) .add o1 o2 o3 s) := rfl

theorem exec_multiply_eq (o1 o2 o3 : Operand) (s : State) :
    exec (.multiply o1 o2 o3) s =
      complete s (binaryToCell (f3Result s.cfg (fun a b => a * b) true) .multiply o1 o2 o3 s) := rfl

/-- Settles O20: ADD is the format F3 kind whose result is the sum, checked against the width (`exec_add_eq`), so it
obeys the rule of such kinds (`f3Rule_of_exec_eq`). -/
theorem addStoresTheExactSum : Obligations.AddStoresTheExactSum :=
  f3Rule_of_exec_eq .add (fun _ _ _ => rfl) exec_add_eq

/-- Settles O21: MUL is the format F3 kind whose result is the product, checked against the width
(`exec_multiply_eq`), so it obeys the rule of such kinds (`f3Rule_of_exec_eq`). -/
theorem multiplyStoresTheExactProduct : Obligations.MultiplyStoresTheExactProduct :=
  f3Rule_of_exec_eq .multiply (fun _ _ _ => rfl) exec_multiply_eq

end Sys2Proof.Machine

/-! ### Conditional jumps (45_jumps.md R190 to R195) -/

namespace Sys2Proof.Machine

theorem exec_jumpIfTrue_eq (o1 o2 : Operand) (u3 : Mode) (s : State) :
    exec (.jumpIfTrue o1 o2 u3) s = complete s (jump condTrue o1 o2 s) := rfl

theorem exec_jumpIfFalse_eq (o1 o2 : Operand) (u3 : Mode) (s : State) :
    exec (.jumpIfFalse o1 o2 u3) s = complete s (jump condFalse o1 o2 s) := rfl

theorem condTrue_eq_true {c : Int} : condTrue c = true ↔ c ≠ 0 := decide_eq_true_iff

theorem condTrue_eq_false {c : Int} : condTrue c = false ↔ c = 0 := decide_eq_false_iff_not.trans not_ne_iff

theorem condFalse_eq_true {c : Int} : condFalse c = true ↔ c = 0 := decide_eq_true_iff

theorem condFalse_eq_false {c : Int} : condFalse c = false ↔ c ≠ 0 := decide_eq_false_iff_not

theorem complete_fallThrough_of_fits {s : State} (h : fits s.cfg.width (s.ip + 3) = true) :
    complete s (fallThrough s) = .next { s with ip := s.ip + 3 } := by
  rw [fallThrough_eq_ok.mpr ⟨h, rfl⟩, complete_ok, State.setIp]

theorem complete_fallThrough_of_not_fits {s : State} (h : fits s.cfg.width (s.ip + 3) = false) :
    complete s (fallThrough s) = .next (raise .overflow s) := by
  rw [fallThrough_eq_error.mpr ⟨h, rfl⟩, complete_error]

section

variable {cond : Int → Bool} {o1 o2 : Operand} {s : State} {c t : Int} {e : Fault}

theorem jump_of_cond_error (hc : resolveValue s o1 = .error e) : jump cond o1 o2 s = .error e :=
  except_bind_eq_error.mpr (.inl hc)

/-- A jump whose condition resolves goes on with the value of the condition. -/
theorem jump_of_cond_ok (hc : resolveValue s o1 = .ok c) :
    jump cond o1 o2 s =
      if s.cfg.lazyJumpTarget && !cond c then fallThrough s
      else resolveValue s o2 >>= fun t => if cond c then .ok (s.setIp t) else fallThrough s := by
  simp only [jump, hc, bind, Except.bind, pure, Except.pure]

/-- A target that is resolved and does not resolve is the jump's fault: the jump is taken, or LAZY_JUMP_TARGET is false
(R192). -/
theorem jump_of_target_error (hc : resolveValue s o1 = .ok c) (ht : resolveValue s o2 = .error e)
    (h : cond c = true ∨ s.cfg.lazyJumpTarget = false) : jump cond o1 o2 s = .error e := by
  have hresolved : (s.cfg.lazyJumpTarget && !cond c) = false := by
    rcases h with h | h <;> simp [h]
  simp only [jump_of_cond_ok hc, hresolved, Bool.false_eq_true, if_false]
  exact except_bind_eq_error.mpr (.inl ht)

theorem jump_of_taken (hc : resolveValue s o1 = .ok c) (ht : resolveValue s o2 = .ok t) (h : cond c = true) :
    jump cond o1 o2 s = .ok (s.setIp t) := by
  simp [jump_of_cond_ok hc, ht, h, bind, Except.bind]

/-- A jump that is not taken falls through when its target resolves, or is not looked at (R192). -/
theorem jump_of_not_taken (hc : resolveValue s o1 = .ok c) (h : cond c = false)
    (ht : s.cfg.lazyJumpTarget = true ∨ ∃ t, resolveValue s o2 = .ok t) : jump cond o1 o2 s = fallThrough s := by
  rcases ht with hlazy | ⟨t, ht⟩
  · simp [jump_of_cond_ok hc, h, hlazy]
  · simp [jump_of_cond_ok hc, h, ht, bind, Except.bind]

/-- A jump with both operands resolved: it takes the target, falls through, or overflows. -/
theorem complete_jump_of_resolved (hc : resolveValue s o1 = .ok c) (ht : resolveValue s o2 = .ok t) :
    (cond c = true → complete s (jump cond o1 o2 s) = .next { s with ip := t }) ∧
    (cond c = false → fits s.cfg.width (s.ip + 3) = true →
      complete s (jump cond o1 o2 s) = .next { s with ip := s.ip + 3 }) ∧
    (cond c = false → fits s.cfg.width (s.ip + 3) = false →
      complete s (jump cond o1 o2 s) = .next (raise .overflow s)) := by
  refine ⟨fun h => ?_, fun h hfits => ?_, fun h hover => ?_⟩
  · rw [jump_of_taken hc ht h, complete_ok, State.setIp]
  · rw [jump_of_not_taken hc h (.inr ⟨t, ht⟩), complete_fallThrough_of_fits hfits]
  · rw [jump_of_not_taken hc h (.inr ⟨t, ht⟩), complete_fallThrough_of_not_fits hover]

end

/-- Settles O32: JT is the jump on `condTrue` (`exec_jumpIfTrue_eq`), which holds of the non-zero values; with both
operands resolved it does what every jump does (`complete_jump_of_resolved`). -/
theorem jumpIfTrueJumpsOnNonzero : Obligations.JumpIfTrueJumpsOnNonzero := by
  intro o1 o2 u3 s
  refine ⟨rfl, fun c t hc ht => ?_⟩
  obtain ⟨htaken, hfalls, hoverflows⟩ := complete_jump_of_resolved (cond := condTrue) hc ht
  rw [exec_jumpIfTrue_eq]
  exact ⟨fun h => htaken (condTrue_eq_true.mpr h), fun h => hfalls (condTrue_eq_false.mpr h),
    fun h => hoverflows (condTrue_eq_false.mpr h)⟩

/-- Settles O33: JF is the jump on `condFalse` (`exec_jumpIfFalse_eq`), which holds of 0 alone; with both operands
resolved it does what every jump does (`complete_jump_of_resolved`). -/
theorem jumpIfFalseJumpsOnZero : Obligations.JumpIfFalseJumpsOnZero := by
  intro o1 o2 u3 s
  refine ⟨rfl, fun c t hc ht => ?_⟩
  obtain ⟨htaken, hfalls, hoverflows⟩ := complete_jump_of_resolved (cond := condFalse) hc ht
  rw [exec_jumpIfFalse_eq]
  exact ⟨fun h => htaken (condFalse_eq_true.mpr h), fun h => hfalls (condFalse_eq_false.mpr h),
    fun h => hoverflows (condFalse_eq_false.mpr h)⟩

/-- JT and JF are the jump on a test that decides their condition. -/
theorem exec_eq_jump {o1 o2 : Operand} {u3 : Mode} {i : Instr} {holds : Int → Prop} (s : State)
    (hi : (i = .jumpIfTrue o1 o2 u3 ∧ holds = fun c => c ≠ 0) ∨ (i = .jumpIfFalse o1 o2 u3 ∧ holds = fun c => c = 0)) :
    ∃ cond : Int → Bool, exec i s = complete s (jump cond o1 o2 s) ∧ ∀ c, cond c = true ↔ holds c := by
  rcases hi with ⟨rfl, rfl⟩ | ⟨rfl, rfl⟩
  · exact ⟨condTrue, exec_jumpIfTrue_eq o1 o2 u3 s, fun _ => condTrue_eq_true⟩
  · exact ⟨condFalse, exec_jumpIfFalse_eq o1 o2 u3 s, fun _ => condFalse_eq_true⟩

/-- Settles O34: both kinds are one jump (`exec_eq_jump`). It faults on its condition, on a target that it resolves
(`jump_of_target_error`), and else falls through without looking at the target (`jump_of_not_taken`). -/
theorem jumpOperandsFaultAsLazinessSays : Obligations.JumpOperandsFaultAsLazinessSays := by
  intro o1 o2 u3 s i holds hi
  obtain ⟨cond, hexec, hcond⟩ := exec_eq_jump s hi
  have hnot : ∀ c, ¬ holds c → cond c = false := fun c h => Bool.eq_false_iff.mpr (mt (hcond c).mp h)
  rw [hexec]
  refine ⟨fun e hc => ?_, fun c e hc ht => ⟨fun h => ?_, fun h hlazy hfits => ?_, fun h hlazy hover => ?_⟩⟩
  · rw [jump_of_cond_error hc, complete_error]
  · rw [jump_of_target_error hc ht (h.imp_left (hcond c).mpr), complete_error]
  · rw [jump_of_not_taken hc (hnot c h) (.inl hlazy), complete_fallThrough_of_fits hfits]
  · rw [jump_of_not_taken hc (hnot c h) (.inl hlazy), complete_fallThrough_of_not_fits hover]

end Sys2Proof.Machine

/-! ### Compares (46_compare.md R200, R201) -/

namespace Sys2Proof.Machine

theorem exec_testLessThan_eq (o1 o2 o3 : Operand) (s : State) :
    exec (.testLessThan o1 o2 o3) s =
      complete s (binaryToCell (f3Result s.cfg (fun a b => if a < b then 1 else 0) false)
        .testLessThan o1 o2 o3 s) := rfl

theorem exec_testEqual_eq (o1 o2 o3 : Operand) (s : State) :
    exec (.testEqual o1 o2 o3) s =
      complete s (binaryToCell (f3Result s.cfg (fun a b => if a = b then 1 else 0) false)
        .testEqual o1 o2 o3 s) := rfl

/-- Settles O22: LT is the format F3 kind whose result is 1 or 0 by the signed order, with no check against the width
(`exec_testLessThan_eq`), so it obeys the rule of such kinds (`f3Rule_of_exec_eq`). -/
theorem lessThanStoresOneOrZero : Obligations.LessThanStoresOneOrZero :=
  f3Rule_of_exec_eq .testLessThan (fun _ _ _ => rfl) exec_testLessThan_eq

/-- Settles O23: EQ is the format F3 kind whose result is 1 or 0 by equality, with no check against the width
(`exec_testEqual_eq`), so it obeys the rule of such kinds (`f3Rule_of_exec_eq`). -/
theorem equalStoresOneOrZero : Obligations.EqualStoresOneOrZero :=
  f3Rule_of_exec_eq .testEqual (fun _ _ _ => rfl) exec_testEqual_eq

end Sys2Proof.Machine

/-! ### AdjustBase (47_base_halt.md R210) -/

namespace Sys2Proof.Machine

theorem exec_adjustBase_eq (o1 : Operand) (u2 u3 : Mode) (s : State) :
    exec (.adjustBase o1 u2 u3) s = complete s (adjustBase o1 s) := rfl

/-- Settles O35: ARB completes the effect of `adjustBase` (`exec_adjustBase_eq`), which answers the two sums when the
operand resolves and both fit (`adjustBase_eq_ok`), and else faults on the operand, on the base or on the next `ip`
(`adjustBase_eq_error`). -/
theorem adjustBaseAddsToTheBase : Obligations.AdjustBaseAddsToTheBase := by
  intro o1 u2 u3 s
  rw [exec_adjustBase_eq]
  refine ⟨rfl, fun x hx hbase hnext => ?_, fun e he => ?_, fun x hx hover => ?_⟩
  · rw [adjustBase_eq_ok.mpr ⟨x, hx, hbase, hnext, rfl⟩, complete_ok, State.setIp, State.setBp]
  · rw [adjustBase_eq_error.mpr (.inl he), complete_error]
  · rw [adjustBase_eq_error.mpr (.inr ⟨x, hx, rfl, hover⟩), complete_error]

end Sys2Proof.Machine

/-! ### Ended runs (42_execution_loop.md R158, R235) -/

namespace Sys2Proof.Machine

theorem State.ended_eq_true {s : State} : s.ended = true ↔ s.status = .halted ∨ s.status = .faulted := by
  cases hs : s.status <;> simp [State.ended, hs]

theorem State.not_running_of_ended {s : State} (h : s.ended = true) : s.status ≠ .running := by
  rcases State.ended_eq_true.mp h with hs | hs <;> simp [hs]

theorem State.not_idle_of_ended {s : State} (h : s.ended = true) : s.status ≠ .idle := by
  rcases State.ended_eq_true.mp h with hs | hs <;> simp [hs]

/-- A machine that is not RUNNING rests (R27, R235). -/
theorem step_eq_self_of_not_running {s t : State} (hs : s.status ≠ .running) (h : step s = .next t) : t = s := by
  rcases step_cases h with ⟨-, rfl⟩ | ⟨hrun, -⟩ | ⟨hrun, -⟩
  · rfl
  · exact absurd hrun hs
  · exact absurd hrun hs

theorem State.start_of_not_idle {s : State} (h : s.status ≠ .idle) : s.start = .refused .startNotIdle := by
  cases hs : s.status with
  | idle => exact absurd hs h
  | running | halted | faulted => simp only [State.start, hs]

theorem State.poke_of_not_idle {s : State} (h : s.status ≠ .idle) (a v : Int) : s.poke a v = .refused .pokeNotIdle := by
  cases hs : s.status with
  | idle => exact absurd hs h
  | running | halted | faulted => simp only [State.poke, hs]

/-- Once started, a machine is given another STATUS by no host action but a reset: `start` and `poke` are refused, and
the input and sink ports do not touch STATUS (R150, R268). -/
theorem act_keeps_status_of_not_idle {h : HostAction} {s t : State} (hs : s.status ≠ .idle) (ha : act h s = .next t) :
    (∃ image, h = .load image) ∨ t.status = s.status := by
  cases h with
  | load image => exact .inl ⟨image, rfl⟩
  | start =>
    rw [act, State.start_of_not_idle hs] at ha
    cases ha
  | poke a v =>
    rw [act, State.poke_of_not_idle hs] at ha
    cases ha
  | supply _ | supplyLine _ | answer _ | sinkRest _ =>
    cases ha
    exact .inr rfl

/-- Settles O39: an ended machine is not RUNNING, so its steps rest (`step_eq_self_of_not_running`), and is not IDLE, so
no host action but a reset gives it another STATUS (`act_keeps_status_of_not_idle`). -/
theorem endedRunsStayEnded : Obligations.EndedRunsStayEnded := by
  intro s hended
  exact ⟨fun t => step_eq_self_of_not_running (State.not_running_of_ended hended),
    fun h t => act_keeps_status_of_not_idle (State.not_idle_of_ended hended)⟩

end Sys2Proof.Machine

/-! ### Reset with an image (70_reset_and_hazards.md section 1, R260, R37) -/

namespace Sys2Proof.Machine

/-- Laid out from address `a`, the integer `k` of an image is listed at `a + k`; a 0 of the image is not listed and
still reads as 0, since the cells after it lie above its address. -/
theorem lookup_imageCells (image : List Int) (a k : Nat) : lookup (imageCells a image) (a + k) = image.getD k 0 := by
  induction image generalizing a k with
  | nil => simp [imageCells, lookup]
  | cons v vs ih =>
    rw [imageCells]
    cases k with
    | zero =>
      split
      · next hv => exact (lookup_below (imageCells_wf (a + 1) vs) (Nat.lt_succ_self a)).trans hv.symm
      · exact if_pos rfl
    | succ k =>
      have htail : lookup (imageCells (a + 1) vs) (a + (k + 1)) = vs.getD k 0 := by
        rw [← ih (a + 1) k, Nat.add_right_comm, Nat.add_assoc]
      rw [List.getD_cons_succ]
      split
      · exact htail
      · rw [lookup, if_neg (by omega), htail]

/-- A memory made from an image holds `P[a]` below `n` and 0 from `n` on (R260). -/
theorem readCell_ofImage (image : List Int) (a : Nat) : readCell (Memory.ofImage image) a = image.getD a 0 := by
  have h := lookup_imageCells image 0 a
  rw [Nat.zero_add] at h
  rw [readCell_eq_lookup (Memory.ofImage_wf image), Memory.ofImage, h]

/-- Settles O1: an image that the loader does not refuse gives the reset state of R37 (`State.load_eq_next`), whose
memory reads as the image (`readCell_ofImage`). -/
theorem loadPutsTheImageInACleanMachine : Obligations.LoadPutsTheImageInACleanMachine := by
  intro s image hlength hwidth
  exact ⟨_, State.load_eq_next.mpr ⟨hlength, hwidth, rfl⟩, rfl, rfl, readCell_ofImage image, rfl, rfl, rfl, rfl, rfl,
    rfl, rfl, rfl, rfl, rfl⟩

end Sys2Proof.Machine

/-! ### Encode and Decode of opcode integers (40_decoder.md R110, R115; 30_encoding.md R81, R92) -/

namespace Sys2Proof.Machine

theorem modeOf_eq_some {n : Nat} {m : Mode} : modeOf n = some m ↔ n = digitOf m := by
  constructor
  · intro h
    unfold modeOf at h
    split at h <;> cases h <;> rfl
  · rintro rfl
    cases m <;> rfl

theorem digitOf_lt_ten (m : Mode) : digitOf m < 10 := by
  cases m <;> decide

/-- Settles O12: the characterisation of `Decode` by its digits (`decodeOpcode_eq_ok`), with `dig` written as the
division it is. -/
theorem decodeReadsTheFiveDigits : Obligations.DecodeReadsTheFiveDigits := by
  intro v c
  exact decodeOpcode_eq_ok

/-- `Decode` is the inverse of `Encode`: the five digits of an integer determine it, and each of them its kind or mode
(R115). -/
theorem decodeOpcode_eq_ok_iff {v : Int} {c : OpCode} : decodeOpcode v = .ok c ↔ v = encodeOpcode c := by
  rw [decodeOpcode_eq_ok, opKind_eq_some, modeOf_eq_some, modeOf_eq_some, modeOf_eq_some]
  have hkind := opNum_lt_hundred c.kind
  have h1 := digitOf_lt_ten c.m1
  have h2 := digitOf_lt_ten c.m2
  have h3 := digitOf_lt_ten c.m3
  simp only [dig, encodeOpcode, Nat.reducePow]
  omega

theorem decodeOpcode_encodeOpcode (c : OpCode) : decodeOpcode (encodeOpcode c) = .ok c :=
  decodeOpcode_eq_ok_iff.mpr rfl

theorem encodeOpcode_injective : Function.Injective encodeOpcode := fun c _ h =>
  Except.ok.inj ((decodeOpcode_encodeOpcode c).symm.trans (decodeOpcode_eq_ok_iff.mpr h))

/-- Settles O13: both directions of `decodeOpcode_eq_ok_iff`. -/
theorem opcodeIntegersRoundTrip : Obligations.OpcodeIntegersRoundTrip :=
  ⟨decodeOpcode_encodeOpcode, fun _ _ h => (decodeOpcode_eq_ok_iff.mp h).symm⟩

/-- Settles O16: each row of R120 and each word of V5 is evaluated. -/
theorem workedDecodesAgree : Obligations.WorkedDecodesAgree := by
  unfold Obligations.WorkedDecodesAgree
  decide

end Sys2Proof.Machine

/-! ### Encode and decode of whole instructions (40_decoder.md R115, R116; 30_encoding.md R80) -/

namespace Sys2Proof.Machine

theorem decode_eq_ok {cells : List Int} {i : Instr} :
    decode cells = .ok i ↔
      ∃ c, decodeOpcode (cells.getD 0 0) = .ok c ∧ i = build c (cells.getD 1 0) (cells.getD 2 0) (cells.getD 3 0) := by
  cases h : decodeOpcode (cells.getD 0 0) with
  | ok c => simp only [decode, h, Except.ok.injEq, exists_eq_left', eq_comm]
  | error e => simp only [decode, h, reduceCtorEq, false_and, exists_false]

@[simp] theorem build_opCode (c : OpCode) (l1 l2 l3 : Int) : (build c l1 l2 l3).opCode = c := by
  obtain ⟨k, m1, m2, m3⟩ := c
  cases k <;> rfl

/-- The literals of a built instruction are as many of the given ones as its kind has operands (R83, R116). -/
theorem build_literals (c : OpCode) (l1 l2 l3 : Int) :
    (build c l1 l2 l3).literals = [l1, l2, l3].take c.kind.arity := by
  obtain ⟨k, m1, m2, m3⟩ := c
  cases k <;> rfl

/-- An instruction is built from its kind, its modes and its literals, whatever stands after them (R116). -/
theorem build_opCode_literals (i : Instr) (rest : List Int) :
    build i.opCode ((i.literals ++ rest).getD 0 0) ((i.literals ++ rest).getD 1 0) ((i.literals ++ rest).getD 2 0) =
      i := by
  cases i <;> rfl

theorem decode_encode (i : Instr) (rest : List Int) : decode (encode i ++ rest) = .ok i :=
  decode_eq_ok.mpr ⟨i.opCode, decodeOpcode_encodeOpcode i.opCode, (build_opCode_literals i rest).symm⟩

/-- The cells of a decoded instruction are the ones it was read from. -/
theorem encode_of_decode {cells : List Int} {i : Instr} (h : decode cells = .ok i) :
    encode i = (List.range i.opCode.kind.width).map (fun k => cells.getD k 0) := by
  obtain ⟨c, hc, rfl⟩ := decode_eq_ok.mp h
  rw [encode, build_opCode, build_literals, ← decodeOpcode_eq_ok_iff.mp hc]
  cases c.kind <;> rfl

/-- Settles O14: an instruction is built again from its own cells (`decode_encode`), and what is built has the cells it
was built from (`encode_of_decode`); both rest on `decodeOpcode_eq_ok_iff` for the opcode integer. -/
theorem instructionsRoundTrip : Obligations.InstructionsRoundTrip :=
  ⟨decode_encode, fun _ _ => encode_of_decode⟩

end Sys2Proof.Machine

/-! ### The opcode integers counted (30_encoding.md R92, 40_decoder.md R114) -/

namespace Sys2Proof.Machine

def allKinds : List Kind :=
  [.add, .multiply, .input, .output, .jumpIfTrue, .jumpIfFalse, .testLessThan, .testEqual, .adjustBase, .halt]

def allModes : List Mode := [.address, .immediate, .relative]

/-- Every kind with every choice of three modes. -/
def allOpCodes : List OpCode :=
  (allKinds ×ˢ allModes ×ˢ allModes ×ˢ allModes).map fun (k, m1, m2, m3) => ⟨k, m1, m2, m3⟩

theorem mem_allKinds (k : Kind) : k ∈ allKinds := by
  cases k <;> decide

theorem mem_allModes (m : Mode) : m ∈ allModes := by
  cases m <;> decide

theorem mem_allOpCodes (c : OpCode) : c ∈ allOpCodes :=
  List.mem_map.mpr ⟨(c.kind, c.m1, c.m2, c.m3), by simp [mem_allKinds, mem_allModes], rfl⟩

theorem allOpCodes_nodup : allOpCodes.Nodup := by
  have hmodes : allModes.Nodup := by decide
  have hkinds : allKinds.Nodup := by decide
  refine (hkinds.product (hmodes.product (hmodes.product hmodes))).map ?_
  rintro ⟨k, m1, m2, m3⟩ ⟨k', m1', m2', m3'⟩ h
  cases h
  rfl

/-- A single opcode integer decodes with every literal 0. -/
theorem decode_singleton_encodeOpcode (c : OpCode) : decode [encodeOpcode c] = .ok (build c 0 0 0) :=
  decode_eq_ok.mpr ⟨c, decodeOpcode_encodeOpcode c, rfl⟩

theorem allOpCodes_length : allOpCodes.length = 270 := by
  simp only [allOpCodes, List.length_map, List.length_product]
  rfl

theorem count_immediateDestinations :
    (allOpCodes.filter fun c => !(build c 0 0 0).destIsCell).length = 45 := by
  decide

/-- Settles O15: the accepted integers are the encodings of `allOpCodes`, distinct because Encode is injective; the
integers with an Immediate destination are counted among the opcodes they decode to. -/
theorem exactlyTwoHundredSeventyIntegersDecode : Obligations.ExactlyTwoHundredSeventyIntegersDecode := by
  refine ⟨allOpCodes.map encodeOpcode, allOpCodes_nodup.map encodeOpcode_injective, ?_, fun v => ?_, ?_⟩
  · rw [List.length_map, allOpCodes_length]
  · simp only [decodeOpcode_eq_ok_iff, List.mem_map, mem_allOpCodes, true_and]
    exact exists_congr fun _ => eq_comm
  · rw [List.filter_map, List.length_map]
    refine Eq.trans (congrArg List.length (List.filter_congr fun c _ => ?_)) count_immediateDestinations
    simp only [Function.comp_apply, decode_singleton_encodeOpcode]

end Sys2Proof.Machine

/-! ### The invariant under each state operation (20_memory.md R71, 10_state.md R25 to R29) -/

namespace Sys2Proof.Machine

section

variable {s : State}

theorem State.inv_setIp {v : Int} (h : s.inv = true) (hv : fits s.cfg.width v = true) : (s.setIp v).inv = true := by
  obtain ⟨hcfg, hwf, hcells, -, hrest⟩ := State.inv_iff.mp h
  exact State.inv_iff.mpr ⟨hcfg, hwf, hcells, hv, hrest⟩

theorem State.inv_setBp {v : Int} (h : s.inv = true) (hv : fits s.cfg.width v = true) : (s.setBp v).inv = true := by
  obtain ⟨hcfg, hwf, hcells, hip, -, hrest⟩ := State.inv_iff.mp h
  exact State.inv_iff.mpr ⟨hcfg, hwf, hcells, hip, hv, hrest⟩

theorem State.inv_setSinkQ (q : List SinkAnswer) (h : s.inv = true) : (s.setSinkQ q).inv = true :=
  State.inv_iff.mpr (State.inv_iff.mp h)

theorem State.inv_setInQ {q : List InItem} (h : s.inv = true) (hq : q.all (itemFits s.cfg.width) = true) :
    (s.setInQ q).inv = true := by
  obtain ⟨hcfg, hwf, hcells, hip, hbp, hinfo, hres, hout, -, hrest⟩ := State.inv_iff.mp h
  exact State.inv_iff.mpr ⟨hcfg, hwf, hcells, hip, hbp, hinfo, hres, hout, hq, hrest⟩

/-- Taking the head of the queue keeps the invariant, and the item taken is an `Int` or holds none. -/
theorem State.inv_takeHead {item : InItem} {q : List InItem} (h : s.inv = true) (hq : s.inQ = item :: q) :
    itemFits s.cfg.width item = true ∧ (s.setInQ q).inv = true := by
  obtain ⟨-, -, -, -, -, -, -, -, hinQ, -⟩ := State.inv_iff.mp h
  rw [hq, List.all_cons, Bool.and_eq_true] at hinQ
  exact ⟨hinQ.1, State.inv_setInQ h hinQ.2⟩

theorem State.inv_emit {x : Int} (h : s.inv = true) (hx : fits s.cfg.width x = true) : (s.emit x).inv = true := by
  obtain ⟨hcfg, hwf, hcells, hip, hbp, hinfo, hres, hout, hrest⟩ := State.inv_iff.mp h
  refine State.inv_iff.mpr ⟨hcfg, hwf, hcells, hip, hbp, hinfo, hres, ?_, hrest⟩
  rw [State.emit_out, List.all_append, Bool.and_eq_true]
  exact ⟨hout, by simpa using hx⟩

theorem State.extentFits_iff : s.extentFits = true ↔ ∀ n, s.cfg.memMax = some n → s.mem.extent ≤ n := by
  unfold State.extentFits
  cases s.cfg.memMax <;> simp

/-- A store that R54 allows, of an `Int`, keeps the invariant. -/
theorem State.inv_store {d : Nat} {v : Int} (h : s.inv = true) (hcap : overCapacity s.cfg d = false)
    (hv : fits s.cfg.width v = true) : (s.setMem (storeCell s.cfg s.mem d v)).inv = true := by
  obtain ⟨hcfg, hwf, hcells, hip, hbp, hinfo, hres, hout, hinQ, hext, hstatus⟩ := State.inv_iff.mp h
  refine State.inv_iff.mpr ⟨hcfg, storeCell_wf v hwf hcap, storeCell_fits s.cfg hcells d hv, hip, hbp, hinfo, hres,
    hout, hinQ, ?_, hstatus⟩
  exact State.extentFits_iff.mpr fun n hn => storeCell_extent_le d v hn (State.extentFits_iff.mp hext n hn)

/-- While RUNNING nothing shows an end of the run (R28, R29). -/
theorem State.statusAgrees_of_running (hs : s.status = .running) :
    s.statusAgrees = true ↔ s.cause = .none ∧ s.causeInfo = 0 ∧ s.result = none := by
  simp [State.statusAgrees, hs, and_assoc]

/-- A RUNNING machine that takes a fault whose detail is an `Int` keeps the invariant (R229). -/
theorem State.inv_raise {f : Fault} (h : s.inv = true) (hs : s.status = .running)
    (hf : fits s.cfg.width f.info = true) : (raise f s).inv = true := by
  obtain ⟨hcfg, hwf, hcells, hip, hbp, -, hres, hout, hinQ, hext, hstatus⟩ := State.inv_iff.mp h
  obtain ⟨-, -, hnone⟩ := (State.statusAgrees_of_running hs).mp hstatus
  refine State.inv_iff.mpr ⟨hcfg, hwf, hcells, hip, hbp, hf, hres, hout, hinQ, hext, ?_⟩
  simp [State.statusAgrees, Fault.cause_ne_none, hnone]

/-- A RUNNING machine that halts with an `Int` as its result keeps the invariant (R211). -/
theorem State.inv_finish {r : Int} (h : s.inv = true) (hs : s.status = .running) (hr : fits s.cfg.width r = true) :
    (s.finish r).inv = true := by
  obtain ⟨hcfg, hwf, hcells, hip, hbp, hinfo, -, hout, hinQ, hext, hstatus⟩ := State.inv_iff.mp h
  obtain ⟨hcause, hzero, -⟩ := (State.statusAgrees_of_running hs).mp hstatus
  refine State.inv_iff.mpr ⟨hcfg, hwf, hcells, hip, hbp, hinfo, by simpa using hr, hout, hinQ, hext, ?_⟩
  simp [State.statusAgrees, hcause, hzero]

/-! ### What a machine that meets the invariant computes with -/

theorem State.fits_small_of_inv (h : s.inv = true) {v : Int} (h0 : -32768 ≤ v) (h1 : v < 32768) :
    fits s.cfg.width v = true :=
  fits_of_legal (State.inv_iff.mp h).1 h0 h1

theorem State.fits_readCell_of_inv (h : s.inv = true) (a : Nat) : fits s.cfg.width (readCell s.mem a) = true := by
  obtain ⟨-, -, hcells, -⟩ := State.inv_iff.mp h
  exact readCell_fits (State.fits_small_of_inv h (by decide) (by decide)) hcells a

theorem State.fits_ip_of_inv (h : s.inv = true) : fits s.cfg.width s.ip = true := by
  obtain ⟨-, -, -, hip, -⟩ := State.inv_iff.mp h
  exact hip

/-- Every literal of a fetched instruction is an `Int`: it was read from a cell, or not fetched at all (R116). -/
theorem State.fits_literal_of_inv {i : Instr} (h : s.inv = true) (hi : fetchInstr s = .ok i) :
    ∀ l ∈ i.literals, fits s.cfg.width l = true := by
  have hlit : ∀ {n k : Nat} {l : Int}, fetchLiteral s n k = .ok l → fits s.cfg.width l = true := fun hl => by
    rcases fetchLiteral_ok hl with ⟨-, -, rfl⟩ | ⟨-, rfl⟩
    · exact State.fits_readCell_of_inv h _
    · exact State.fits_small_of_inv h (by decide) (by decide)
  obtain ⟨v, c, l1, l2, l3, -, -, h1, h2, h3, rfl⟩ := fetchInstr_eq_ok.mp hi
  intro l hl
  rw [build_literals] at hl
  obtain rfl | rfl | rfl : l = l1 ∨ l = l2 ∨ l = l3 := by simpa using List.mem_of_mem_take hl
  · exact hlit h1
  · exact hlit h2
  · exact hlit h3

theorem State.fits_resolveValue_of_inv {o : Operand} {x : Int} (h : s.inv = true)
    (ho : fits s.cfg.width o.lit = true) (hx : resolveValue s o = .ok x) : fits s.cfg.width x = true := by
  rcases resolveValue_ok_cases hx with rfl | ⟨a, rfl⟩
  · exact ho
  · exact State.fits_readCell_of_inv h a

/-- The detail of a fault that an operand reports is an `Int` (R231). -/
theorem Reported.info_fits {i : Instr} {f : Fault} (hf : Reported i s f) (h : s.inv = true)
    (hlit : ∀ l ∈ i.literals, fits s.cfg.width l = true) : fits s.cfg.width f.info = true := by
  cases hf with
  | addressing o hd hm =>
    obtain ⟨h0, h1⟩ := encodeOpcode_bounds i.opCode
    exact State.fits_small_of_inv h (by change _ ≤ encodeOpcode _; omega) h1
  | literal a ha => exact hlit a ha
  | relative a ha => exact ha
  | overflow => exact State.fits_small_of_inv h (by decide) (by decide)
  | outOfMemory o d hd hres ho =>
    obtain ⟨-, ⟨-, rfl⟩ | ⟨-, -, hfits⟩⟩ := resolveAddress_eq_ok.mp hres
    · exact hlit _ ho
    · exact hfits

/-- The detail of a fault of the fetch is an `Int` (R231). -/
theorem State.fits_fetch_fault_of_inv {f : Fault} (h : s.inv = true) (hf : fetchInstr s = .error f) :
    fits s.cfg.width f.info = true := by
  rcases fetchInstr_error hf with ⟨-, rfl⟩ | ⟨-, rfl⟩ | ⟨-, rfl⟩
  · exact State.fits_ip_of_inv h
  · exact State.fits_readCell_of_inv h _
  · exact State.fits_small_of_inv h (by decide) (by decide)

/-- A storing instruction stores an `Int`, and what it leaves of the queue is good (R180, R200). -/
theorem Stored.fits_and_inv {v : Int} {q : List InItem} (hv : Stored s v q) (h : s.inv = true) :
    fits s.cfg.width v = true ∧ (s.setInQ q).inv = true := by
  cases hv with
  | computed hfits hq =>
    subst hq
    exact ⟨hfits, h⟩
  | tested hbit hq =>
    subst hq
    exact ⟨State.fits_small_of_inv h (by omega) (by omega), h⟩
  | taken hq => exact State.inv_takeHead h hq

end

/-! ### The invariant under a step and under a host action -/

/-- Every effect of an instruction whose literals are `Int`s keeps the invariant of a RUNNING machine. -/
theorem Effect.keeps_inv {i : Instr} {s t : State} (he : Effect i s t) (h : s.inv = true) (hs : s.status = .running)
    (hlit : ∀ l ∈ i.literals, fits s.cfg.width l = true) : t.inv = true := by
  have hsmall : ∀ {v : Int}, -32768 ≤ v → v < 32768 → fits s.cfg.width v = true := State.fits_small_of_inv h
  cases he with
  | faulted f hf => exact State.inv_raise h hs (hf.info_fits h hlit)
  | unparseable o1 u2 u3 q hi hq =>
    exact State.inv_raise (State.inv_takeHead h hq).2 hs (hsmall (by decide) (by decide))
  | transportFailed o1 u2 u3 q hi hq =>
    exact State.inv_raise (State.inv_takeHead h hq).2 hs (hsmall (by decide) (by decide))
  | sinkFailed o1 u2 u3 q hi hq =>
    exact State.inv_raise (State.inv_setSinkQ q h) hs (hsmall (by decide) (by decide))
  | heldForInput => exact h
  | heldForOutput => exact h
  | stored o d v q hd ha hc hv hin hf =>
    obtain ⟨hfits, hinv⟩ := hv.fits_and_inv h
    exact State.inv_setIp (State.inv_store hinv hc hfits) hf
  | emitted o1 u2 u3 x n q hi ht hq =>
    subst hi
    obtain ⟨hx, hf, rfl⟩ := outputOffer_eq_ok.mp ht
    have hxfits := State.fits_resolveValue_of_inv h (hlit o1.lit (by simp [Instr.literals])) hx
    exact State.inv_setIp (State.inv_emit (State.inv_setSinkQ q h) hxfits) hf
  | jumped o1 o2 u3 n hi hn =>
    have ho2 : fits s.cfg.width o2.lit = true := hlit o2.lit (by rcases hi with rfl | rfl <;> simp [Instr.literals])
    exact State.inv_setIp h (hn.elim id (State.fits_resolveValue_of_inv h ho2))
  | adjusted o1 u2 u3 x hi hb hf => exact State.inv_setIp (State.inv_setBp h hb) hf
  | halted u1 u2 u3 n hi hn =>
    have hnext : fits s.cfg.width n = true := by
      rcases hn with rfl | hn
      · exact State.fits_ip_of_inv h
      · exact hn
    exact State.inv_setIp (State.inv_finish h hs (State.fits_readCell_of_inv h 0)) hnext

theorem step_keeps_inv {s t : State} (h : s.inv = true) (hstep : step s = .next t) : t.inv = true := by
  rcases step_cases hstep with ⟨-, rfl⟩ | ⟨hs, f, hf, rfl⟩ | ⟨hs, i, hi, he⟩
  · exact h
  · exact State.inv_raise h hs (State.fits_fetch_fault_of_inv h hf)
  · exact he.keeps_inv h hs (State.fits_literal_of_inv h hi)

/-- Settles O47: the empty image is in canonical form (`State.reset_mem_wf`) and the other parts hold of the reset
values. -/
theorem resetMeetsTheMachineInvariant : Obligations.ResetMeetsTheMachineInvariant :=
  State.inv_iff.mpr ⟨rfl, State.reset_mem_wf, rfl, rfl, rfl, rfl, rfl, rfl, rfl, rfl, rfl⟩

/-- Settles O48: a step rests, takes a fault of the fetch whose detail is an `Int`, or has one of the effects of the
fetched instruction, each of which keeps the invariant (`Effect.keeps_inv`). -/
theorem everyStepKeepsTheMachineInvariant : Obligations.EveryStepKeepsTheMachineInvariant :=
  fun _ _ => step_keeps_inv

end Sys2Proof.Machine

/-! ### Writing memory (20_memory.md R54 to R56, R227) -/

namespace Sys2Proof.Machine

theorem overCapacity_eq_true {cfg : Config} {a : Nat} :
    overCapacity cfg a = true ↔ ∃ n, cfg.memMax = some n ∧ n ≤ a := by
  unfold overCapacity
  cases cfg.memMax <;> simp

theorem memWrite_of_neg (cfg : Config) (m : Memory) {a : Int} (v : Int) (h : a < 0) :
    memWrite cfg m a v = .error (.negativeAddress a) := if_pos h

theorem memWrite_of_overCapacity {cfg : Config} (m : Memory) {a : Int} (v : Int) (h0 : 0 ≤ a)
    (hcap : overCapacity cfg a.toNat = true) : memWrite cfg m a v = .error (.outOfMemory a) := by
  rw [memWrite, if_neg (Int.not_lt.mpr h0), if_pos hcap]

theorem memWrite_of_good {cfg : Config} (m : Memory) {a : Int} (v : Int) (h0 : 0 ≤ a)
    (hcap : overCapacity cfg a.toNat = false) : memWrite cfg m a v = .ok (storeCell cfg m a.toNat v) :=
  memWrite_eq_ok.mpr ⟨h0, hcap, rfl⟩

/-- A read at a negative address does not look at the memory. -/
theorem memRead_congr {m m' : Memory} {c : Int} (h : 0 ≤ c → readCell m' c.toNat = readCell m c.toNat) :
    memRead m' c = memRead m c := by
  unfold memRead
  split
  · rfl
  · rw [h (by omega)]

/-- Settles O9: a write within the capacity is a store, whose value, frame, canonical form and extent are the laws of
`storeCell`. -/
theorem memWriteStoresOneCellAndKeepsTheRest : Obligations.MemWriteStoresOneCellAndKeepsTheRest := by
  intro cfg m a v hwf h0 hcap
  refine ⟨_, memWrite_of_good m v h0 hcap, storeCell_wf v hwf hcap, ?_, fun c hc => ?_, storeCell_extent_below v,
    storeCell_extent_beyond v, fun n => storeCell_extent_le a.toNat v⟩
  · exact memRead_eq_ok.mpr ⟨h0, (readCell_storeCell_same v hwf hcap).symm⟩
  · exact memRead_congr fun hc0 => readCell_storeCell_other v hwf hcap (by omega)

/-- Settles O10: the two checks of a write in their order (`memWrite_of_neg`, `memWrite_of_overCapacity`). -/
theorem memWriteFaultsOnBadAddresses : Obligations.MemWriteFaultsOnBadAddresses := by
  intro cfg m a v
  refine ⟨memWrite_of_neg cfg m v, fun n h0 hmax hle => ?_⟩
  exact memWrite_of_overCapacity m v h0 (overCapacity_eq_true.mpr ⟨n, hmax, by omega⟩)

theorem growExtent_direct {cfg : Config} (extent a : Nat) (hgrow : cfg.grow = .direct) (hmax : cfg.memMax = none) :
    growExtent cfg extent a = a + 1 := by
  simp only [growExtent, hgrow, hmax]

theorem growExtent_doubling {cfg : Config} (extent a : Nat) (hgrow : cfg.grow = .doubling)
    (hmax : cfg.memMax = none) : growExtent cfg extent a = max (2 * extent) (a + 1) := by
  simp only [growExtent, hgrow, hmax]

/-- Settles O11: the bounds of GROW on both sides hold of every policy, and the two policies that the spec names are
computed. -/
theorem everyGrowthPolicyMakesRoom : Obligations.EveryGrowthPolicyMakesRoom := fun _ extent a =>
  ⟨growExtent_gt extent, fun _ => growExtent_le extent a, growExtent_direct extent a, growExtent_doubling extent a⟩

end Sys2Proof.Machine

/-! ### Ports of the host (10_state.md R35, 70_reset_and_hazards.md R262, R268) -/

namespace Sys2Proof.Machine

section

variable {s t : State} {a v : Int}

/-- A machine that is not RUNNING rests (R27, R235). -/
theorem step_of_not_running (hs : s.status ≠ .running) : step s = .next s := by
  cases h : s.status with
  | running => exact absurd h hs
  | idle | halted | faulted => simp only [step, h, atRest_eq]

theorem State.start_of_idle (hs : s.status = .idle) : s.start = .next { s with status := .running } := by
  simp only [State.start, hs]

theorem State.peek_of_not_idle (hs : s.status ≠ .idle) (a : Int) : s.peek a = .error (.inr .pokeNotIdle) := by
  cases h : s.status with
  | idle => exact absurd h hs
  | running | halted | faulted => simp only [State.peek, h]

theorem State.peek_of_ok (hs : s.status = .idle) (hr : memRead s.mem a = .ok v) : s.peek a = .ok v := by
  simp only [State.peek, hs, hr]

theorem State.peek_of_error {f : Fault} (hs : s.status = .idle) (hr : memRead s.mem a = .error f) :
    s.peek a = .error (.inl f) := by
  simp only [State.peek, hs, hr]

theorem State.poke_of_ok {m : Memory} (hs : s.status = .idle) (ha : fits s.cfg.width a = true)
    (hv : fits s.cfg.width v = true) (hw : memWrite s.cfg s.mem a v = .ok m) : s.poke a v = .next (s.setMem m) := by
  simp only [State.poke, hs, ha, hv, hw, Bool.and_self, if_true]

theorem State.poke_of_error {f : Fault} (hs : s.status = .idle) (ha : fits s.cfg.width a = true)
    (hv : fits s.cfg.width v = true) (hw : memWrite s.cfg s.mem a v = .error f) : s.poke a v = .fault f := by
  simp only [State.poke, hs, ha, hv, hw, Bool.and_self, if_true]

theorem State.poke_of_not_fits (hs : s.status = .idle)
    (h : (fits s.cfg.width a && fits s.cfg.width v) = false) : s.poke a v = .refused .integerOutOfRange := by
  simp only [State.poke, hs, h, Bool.false_eq_true, if_false]

/-- A poke that is carried out is a store of an `Int` in an IDLE machine (R54, R268). -/
theorem State.poke_eq_next (h : s.poke a v = .next t) :
    s.status = .idle ∧ fits s.cfg.width v = true ∧ overCapacity s.cfg a.toNat = false ∧
      t = s.setMem (storeCell s.cfg s.mem a.toNat v) := by
  by_cases hs : s.status = .idle
  · cases hfits : fits s.cfg.width a && fits s.cfg.width v with
    | false =>
      rw [State.poke_of_not_fits hs hfits] at h
      cases h
    | true =>
      obtain ⟨ha, hv⟩ := Bool.and_eq_true_iff.mp hfits
      cases hw : memWrite s.cfg s.mem a v with
      | error f =>
        rw [State.poke_of_error hs ha hv hw] at h
        cases h
      | ok m =>
        rw [State.poke_of_ok hs ha hv hw] at h
        cases h
        obtain ⟨-, hcap, rfl⟩ := memWrite_eq_ok.mp hw
        exact ⟨hs, hv, hcap, rfl⟩
  · rw [State.poke_of_not_idle hs] at h
    cases h

/-- Only an IDLE machine is started (R150). -/
theorem State.start_eq_next (h : s.start = .next t) : s.status = .idle ∧ t = { s with status := .running } := by
  by_cases hs : s.status = .idle
  · rw [State.start_of_idle hs] at h
    cases h
    exact ⟨hs, rfl⟩
  · rw [State.start_of_not_idle hs] at h
    cases h

end

theorem imageFitsMemory_eq_true {cfg : Config} {image : List Int} :
    imageFitsMemory cfg image = true ↔ ∀ n, cfg.memMax = some n → image.length ≤ n := by
  unfold imageFitsMemory
  cases cfg.memMax <;> simp

/-- Settles O2: the memory of the empty image has no cell, so every address reads as 0; the other fields are read off
the definition. -/
theorem resetStateHoldsTheResetValues : Obligations.ResetStateHoldsTheResetValues :=
  ⟨rfl, rfl, rfl, fun a => readCell_of_extent_le (Nat.zero_le a), rfl, rfl, rfl, rfl, rfl, rfl, rfl, rfl, rfl⟩

/-- Settles O3: the loader's two checks in their order, and what it accepts (`State.load_eq_next`). -/
theorem loadRefusesExactlyTheBadImages : Obligations.LoadRefusesExactlyTheBadImages := by
  intro s image
  refine ⟨fun hlength => ?_, fun hlength hwidth => ?_, fun hlength hwidth => ?_, ?_⟩
  · simp only [State.load, hlength, Bool.not_false, if_true]
  · simp only [State.load, hlength, hwidth, Bool.not_true, Bool.not_false, Bool.false_eq_true, if_true, if_false]
  · exact ⟨_, State.load_eq_next.mpr ⟨hlength, hwidth, rfl⟩⟩
  · rw [← Bool.not_eq_true, imageFitsMemory_eq_true]
    push Not
    rfl

/-- Settles O4: an IDLE machine is started and until then rests; in every other status `start` is refused. -/
theorem startRunsOnlyAnIdleMachine : Obligations.StartRunsOnlyAnIdleMachine := fun _ =>
  ⟨fun hs => ⟨State.start_of_idle hs, step_of_not_running (by simp [hs])⟩, State.start_of_not_idle⟩

/-- Settles O5: outside IDLE both ports refuse; while IDLE they answer what `memWrite` and `memRead` answer. -/
theorem pokesReachAnIdleMachineOnly : Obligations.PokesReachAnIdleMachineOnly := by
  intro s a v
  refine ⟨fun hs => ⟨State.poke_of_not_idle hs a v, State.peek_of_not_idle hs a⟩, fun hs ha hv => ⟨fun hneg => ?_,
    fun h0 hfull => ?_, fun h0 hcap hwf => ?_, fun h0 => ?_⟩⟩
  · exact ⟨State.poke_of_error hs ha hv (memWrite_of_neg s.cfg s.mem v hneg),
      State.peek_of_error hs (memRead_eq_error.mpr ⟨hneg, rfl⟩)⟩
  · exact State.poke_of_error hs ha hv (memWrite_of_overCapacity s.mem v h0 hfull)
  · exact ⟨_, State.poke_of_ok hs ha hv (memWrite_of_good s.mem v h0 hcap), storedAt_storeCell v hwf hcap⟩
  · exact State.peek_of_ok hs (memRead_eq_ok.mpr ⟨h0, rfl⟩)

/-- Settles O6: the cells shown are the snapshot, which reads the addresses below the extent in order. -/
theorem inspectShowsPointersAndEveryPresentCell : Obligations.InspectShowsPointersAndEveryPresentCell := by
  intro s
  refine ⟨s.mem.snapshot, rfl, ?_, fun a ha => ?_⟩
  · rw [Memory.snapshot, List.length_map, List.length_range]
  · rw [Memory.snapshot, List.getElem?_map, List.getElem?_range ha, Option.map_some]

end Sys2Proof.Machine

/-! ### Items supplied by the host (10_state.md R30, 44_io.md R182) -/

namespace Sys2Proof.Machine

/-- A line gives an item that the machine can hold (R182). -/
theorem lineItem_fits (cfg : Config) (line : Option (List Char)) : itemFits cfg.width (lineItem cfg line) = true := by
  cases line with
  | none => rfl
  | some cs =>
    rw [lineItem]
    split
    · next v _ => exact queuedItem_fits cfg (.value v)
    · rfl

/-- Settles O56: an item that fits is queued as it is (`queuedItem_of_fits`), which every line's item does
(`lineItem_fits`), and a number that does not is queued as Unparseable. -/
theorem suppliedItemsGoToTheTail : Obligations.SuppliedItemsGoToTheTail := by
  intro s item v line
  refine ⟨fun hfits => ?_, fun hout => ?_, ?_⟩
  · have hitem : itemFits s.cfg.width item = true := by
      cases item with
      | value u => exact hfits u rfl
      | unparseable | transportFailed => rfl
    rw [act, State.supply, queuedItem_of_fits hitem, State.setInQ]
  · have hitem : queuedItem s.cfg (.value v) = .unparseable := by
      rw [queuedItem, itemOfValue, hout, if_neg Bool.false_ne_true]
    rw [act, State.supply, hitem, State.setInQ]
  · rw [act, State.supply, queuedItem_of_fits (lineItem_fits s.cfg line), State.setInQ]

end Sys2Proof.Machine

/-! ### The invariant under the host's actions (70_reset_and_hazards.md R268) -/

namespace Sys2Proof.Machine

/-- A machine reset with an accepted image meets the invariant if its parameters are legal and its queue is good: the
rest of the old state is gone (R260). -/
theorem State.inv_load {s t : State} {image : List Int} (h : s.inv = true) (hload : s.load image = .next t) :
    t.inv = true := by
  obtain ⟨hlength, hwidth, rfl⟩ := State.load_eq_next.mp hload
  obtain ⟨hcfg, -, -, -, -, -, -, -, hinQ, -, -⟩ := State.inv_iff.mp h
  have hzero : fits s.cfg.width 0 = true := fits_of_legal hcfg (by decide) (by decide)
  exact State.inv_iff.mpr ⟨hcfg, Memory.ofImage_wf image, imageCells_fits 0 hwidth, hzero, hzero, hzero, rfl, rfl, hinQ,
    State.extentFits_iff.mpr (imageFitsMemory_eq_true.mp hlength), rfl⟩

theorem State.inv_start {s t : State} (h : s.inv = true) (hstart : s.start = .next t) : t.inv = true := by
  obtain ⟨hs, rfl⟩ := State.start_eq_next hstart
  obtain ⟨hcfg, hwf, hcells, hip, hbp, hinfo, hres, hout, hinQ, hext, hstatus⟩ := State.inv_iff.mp h
  refine State.inv_iff.mpr ⟨hcfg, hwf, hcells, hip, hbp, hinfo, hres, hout, hinQ, hext, ?_⟩
  simpa [State.statusAgrees, hs] using hstatus

theorem State.inv_supply {s : State} (item : InItem) (h : s.inv = true) : (s.supply item).inv = true := by
  obtain ⟨-, -, -, -, -, -, -, -, hinQ, -⟩ := State.inv_iff.mp h
  refine State.inv_setInQ h ?_
  rw [List.all_append, Bool.and_eq_true]
  exact ⟨hinQ, by simpa using queuedItem_fits s.cfg item⟩

/-- Settles O49: each action of the host keeps the invariant: reset and `start` by their lemmas, a poke as a store of an
`Int`, an item because what comes into the queue is an `Int` or no number, and the sink's answers because the invariant
does not look at them. -/
theorem hostActionsKeepTheMachineInvariant : Obligations.HostActionsKeepTheMachineInvariant := by
  intro s t h hinv hact
  cases h with
  | load image => exact State.inv_load hinv hact
  | start => exact State.inv_start hinv hact
  | poke a v =>
    obtain ⟨-, hv, hcap, rfl⟩ := State.poke_eq_next hact
    exact State.inv_store hinv hcap hv
  | supply item =>
    cases hact
    exact State.inv_supply item hinv
  | supplyLine line =>
    cases hact
    exact State.inv_supply _ hinv
  | answer a =>
    cases hact
    exact State.inv_setSinkQ _ hinv
  | sinkRest a =>
    cases hact
    exact State.inv_iff.mpr (State.inv_iff.mp hinv)

end Sys2Proof.Machine

/-! ### Destination operands by mode (41_operand_resolver.md R132) -/

namespace Sys2Proof.Machine

theorem resolveAddress_relative {s : State} {opcode lit a : Int} (h : relativeAddress s lit = .ok a) :
    resolveAddress opcode s ⟨.relative, lit⟩ = checkNonneg a := by
  simp only [resolveAddress, h]
  rfl

/-- Settles O19: Immediate and Address by the definition; for Relative the width decides between the sign test of the
sum (`resolveAddress_relative`) and the Overflow among the faults of a destination (`resolveAddress_eq_error`). -/
theorem destinationOperandsResolveByMode : Obligations.DestinationOperandsResolveByMode := by
  intro s lit opcode
  refine ⟨rfl, rfl, fun hfits => ?_, fun hout => ?_⟩
  · exact resolveAddress_relative (relativeAddress_eq_ok.mpr ⟨hfits, rfl⟩)
  · exact resolveAddress_eq_error.mpr (.inr (.inr (.inl ⟨rfl, hout, rfl⟩)))

end Sys2Proof.Machine

/-! ### The first cause of a format F3 kind (60_exceptions.md R228) -/

namespace Sys2Proof.Machine

/-- The four format F3 kinds run `binaryToCell`, each with its own operation. -/
theorem exec_eq_binaryToCell {mk : Operand → Operand → Operand → Instr} (o1 o2 o3 : Operand) (s : State)
    (hmk : mk = .add ∨ mk = .multiply ∨ mk = .testLessThan ∨ mk = .testEqual) :
    ∃ op k, (mk o1 o2 o3).opCode = ⟨k, o1.mode, o2.mode, o3.mode⟩ ∧
      exec (mk o1 o2 o3) s = complete s (binaryToCell op k o1 o2 o3 s) := by
  rcases hmk with rfl | rfl | rfl | rfl
  · exact ⟨_, .add, rfl, rfl⟩
  · exact ⟨_, .multiply, rfl, rfl⟩
  · exact ⟨_, .testLessThan, rfl, rfl⟩
  · exact ⟨_, .testEqual, rfl, rfl⟩

/-- Settles O24: each clause is the branch of `binaryToCell_eq_error` that its cause stands in, the checks before it
passed. -/
theorem binaryInstructionsReportTheFirstCause : Obligations.BinaryInstructionsReportTheFirstCause := by
  intro mk o1 o2 o3 s opcode hmk hop
  obtain ⟨op, k, hcode, hexec⟩ := exec_eq_binaryToCell o1 o2 o3 s hmk
  rw [hcode] at hop
  subst hop
  have hraise {e : Fault} (h : binaryToCell op k o1 o2 o3 s = .error e) : exec (mk o1 o2 o3) s = .next (raise e s) := by
    rw [hexec, h, complete_error]
  refine ⟨fun himm => hraise (binaryToCell_eq_error.mpr (.inl ⟨himm, rfl⟩)), fun hcell => ?_⟩
  have hchecked {e : Fault} h : exec (mk o1 o2 o3) s = .next (raise e s) :=
    hraise (binaryToCell_eq_error.mpr (.inr ⟨hcell, h⟩))
  refine ⟨fun e h1 => ?_, fun a e h1 h2 => ?_, fun a b e h1 h2 h3 => ?_, fun a b d h1 h2 h3 hfull => ?_⟩
  · exact hchecked (.inl h1)
  · exact hchecked (.inr ⟨a, h1, .inl h2⟩)
  · exact hchecked (.inr ⟨a, h1, .inr ⟨b, h2, .inl (resolveDest_eq_error.mpr (.inl h3))⟩⟩)
  · exact hchecked (.inr ⟨a, h1, .inr ⟨b, h2, .inl (resolveDest_eq_error.mpr (.inr ⟨d, h3, hfull, rfl⟩))⟩⟩)

end Sys2Proof.Machine

/-! ### Input, case by case (44_io.md R180 to R184) -/

namespace Sys2Proof.Machine

section

variable {o1 : Operand} {u2 u3 : Mode} {s : State} {d n : Int}

theorem exec_input_of_error {f : Fault}
    (h : inputTarget (encodeOpcode ⟨.input, o1.mode, u2, u3⟩) o1 s = .error f) :
    exec (.input o1 u2 u3) s = .next (raise f s) := by
  simp only [exec, execInput, h]

theorem exec_input_of_empty (h : inputTarget (encodeOpcode ⟨.input, o1.mode, u2, u3⟩) o1 s = .ok (d, n))
    (hq : s.inQ = []) : exec (.input o1 u2 u3) s = .next s := by
  simp only [exec, execInput, h, hq, atRest_eq]

theorem exec_input_of_item {item : InItem} {rest : List InItem}
    (h : inputTarget (encodeOpcode ⟨.input, o1.mode, u2, u3⟩) o1 s = .ok (d, n)) (hq : s.inQ = item :: rest) :
    exec (.input o1 u2 u3) s = complete (s.setInQ rest) (takeItem d n item (s.setInQ rest)) := by
  simp only [exec, execInput, h, hq]

/-- A value at the head of the queue is stored in the cell that the destination names (R180). -/
theorem exec_input_of_value {x : Int} {rest : List InItem}
    (h : inputTarget (encodeOpcode ⟨.input, o1.mode, u2, u3⟩) o1 s = .ok (d, n)) (hq : s.inQ = .value x :: rest) :
    exec (.input o1 u2 u3) s =
      .next (((s.setInQ rest).setMem (storeCell s.cfg s.mem d.toNat x)).setIp (s.ip + 2)) := by
  obtain ⟨hd, hcap, -, rfl⟩ := inputTarget_eq_ok.mp h
  have hstore := memWrite_of_good s.mem x (resolveAddress_nonneg hd) hcap
  rw [exec_input_of_item h hq]
  simp only [takeItem, State.setInQ_cfg, State.setInQ_mem, hstore, bind, Except.bind, pure, Except.pure, complete_ok]

end

/-- Settles O26: a good destination and next `ip` are IN's target (`inputTarget_eq_ok`), and the value is a store into
the machine whose queue has lost it (`exec_input_of_value`). -/
theorem inputStoresTheNextValue : Obligations.InputStoresTheNextValue := by
  intro o1 u2 u3 s opcode hop
  obtain rfl : opcode = encodeOpcode ⟨.input, o1.mode, u2, u3⟩ := hop
  refine ⟨rfl, fun d x rest hwf hd hcap hnext hq => ⟨_, storedAt_storeCell (s := s.setInQ rest) x hwf hcap, ?_⟩⟩
  exact exec_input_of_value (inputTarget_eq_ok.mpr ⟨hd, hcap, hnext, rfl⟩) hq

/-- Settles O27: the three faults of IN's target (`inputTarget_eq_error`), found before the queue is looked at. -/
theorem inputChecksItsDestinationBeforeTheQueue : Obligations.InputChecksItsDestinationBeforeTheQueue := by
  intro o1 u2 u3 s opcode hop
  subst hop
  refine ⟨fun e he => ?_, fun d hd hfull => ?_, fun d hd hcap hover => ?_⟩
  · exact exec_input_of_error (inputTarget_eq_error.mpr (.inl he))
  · exact exec_input_of_error (inputTarget_eq_error.mpr (.inr ⟨d, hd, .inl ⟨hfull, rfl⟩⟩))
  · exact exec_input_of_error (inputTarget_eq_error.mpr (.inr ⟨d, hd, .inr ⟨hcap, hover, rfl⟩⟩))

/-- Settles O28: with its target settled, IN rests on the empty queue and takes the fault of a bad item in the machine
whose queue has lost it. -/
theorem inputHoldsOnNothingAndFaultsOnBadItems : Obligations.InputHoldsOnNothingAndFaultsOnBadItems := by
  intro o1 u2 u3 s d rest hd hcap hnext
  have htarget := inputTarget_eq_ok.mpr ⟨hd, hcap, hnext, rfl⟩
  exact ⟨exec_input_of_empty htarget, exec_input_of_item htarget, exec_input_of_item htarget⟩

end Sys2Proof.Machine

/-! ### Output, case by case (44_io.md R185, R186) -/

namespace Sys2Proof.Machine

section

variable {o1 : Operand} {s : State} {x n : Int} {rest : List SinkAnswer} (u2 u3 : Mode)

theorem exec_output_of_error {f : Fault} (h : outputOffer o1 s = .error f) :
    exec (.output o1 u2 u3) s = .next (raise f s) := by
  simp only [exec, execOutput, h]

theorem exec_output_of_silent (h : outputOffer o1 s = .ok (x, n)) (ha : nextAnswer s = none) :
    exec (.output o1 u2 u3) s = .next s := by
  simp only [exec, execOutput, h, ha, atRest_eq]

theorem exec_output_of_accepted (h : outputOffer o1 s = .ok (x, n)) (ha : nextAnswer s = some (.accepted, rest)) :
    exec (.output o1 u2 u3) s = .next (((s.setSinkQ rest).emit x).setIp n) := by
  simp only [exec, execOutput, h, ha]

theorem exec_output_of_sinkFailed (h : outputOffer o1 s = .ok (x, n))
    (ha : nextAnswer s = some (.sinkFailed, rest)) :
    exec (.output o1 u2 u3) s = .next (raise (.ioError .outputSide) (s.setSinkQ rest)) := by
  simp only [exec, execOutput, h, ha]

end

/-- Settles O29: a source that resolves with a good next `ip` is OUT's offer (`outputOffer_eq_ok`), and the sink's
answer to it decides. -/
theorem outputAppendsWhatTheSinkAccepts : Obligations.OutputAppendsWhatTheSinkAccepts := by
  intro o1 u2 u3 s
  refine ⟨rfl, fun x rest hx hnext => ?_⟩
  have hoffer := outputOffer_eq_ok.mpr ⟨hx, hnext, rfl⟩
  exact ⟨exec_output_of_accepted u2 u3 hoffer, exec_output_of_sinkFailed u2 u3 hoffer,
    exec_output_of_silent u2 u3 hoffer⟩

/-- Settles O30: the two faults of OUT's offer (`outputOffer_eq_error`), found before the sink is asked. -/
theorem outputFaultsBeforeItOffers : Obligations.OutputFaultsBeforeItOffers := by
  intro o1 u2 u3 s
  refine ⟨fun e he => ?_, fun x hx hover => ?_⟩
  · exact exec_output_of_error u2 u3 (outputOffer_eq_error.mpr (.inl he))
  · exact exec_output_of_error u2 u3 (outputOffer_eq_error.mpr (.inr ⟨x, hx, hover, rfl⟩))

end Sys2Proof.Machine

/-! ### Unused mode slots (30_encoding.md R85) -/

namespace Sys2Proof.Machine

/-- The opcode integer shows in IN's checks only as the detail of an AddressingError. -/
theorem inputTarget_eq_of_cell {o1 : Operand} (s : State) (v w : Int) (hm : o1.mode ≠ .immediate) :
    inputTarget v o1 s = inputTarget w o1 s := by
  cases h : o1.mode with
  | immediate => exact absurd h hm
  | address | relative => simp only [inputTarget, checkDestMode, resolveDest, resolveAddress, h]

/-- Settles O17: five kinds do not read their unused slots; IN reads its own in the opcode integer only, which is not
looked at unless its destination is Immediate (`inputTarget_eq_of_cell`). -/
theorem unusedModeSlotsHaveNoEffect : Obligations.UnusedModeSlotsHaveNoEffect := by
  intro o1 o2 u1 u2 u3 v1 v2 v3 s
  refine ⟨rfl, rfl, rfl, rfl, rfl, fun hm => ?_⟩
  simp only [exec, execInput]
  rw [inputTarget_eq_of_cell s _ (encodeOpcode ⟨.input, o1.mode, v2, v3⟩) hm]

end Sys2Proof.Machine

/-! ### Halt (47_base_halt.md R211) -/

namespace Sys2Proof.Machine

theorem halt_of_ok {s : State} {n : Int} (h : ipAfterHalt s = .ok n) :
    halt s = .ok ((s.finish (readCell s.mem 0)).setIp n) := by
  rcases halt_cases (s := s) with ⟨n', hhalt, hn⟩ | ⟨-, hn⟩ <;> rw [h] at hn <;> cases hn
  exact hhalt

theorem halt_of_error {s : State} {e : Fault} (h : ipAfterHalt s = .error e) : halt s = .error e :=
  except_bind_eq_error.mpr (.inl h)

theorem ipAfterHalt_of_stays {s : State} (h : s.cfg.haltAdvancesIp = false) : ipAfterHalt s = .ok s.ip := by
  rw [ipAfterHalt, h, if_neg Bool.false_ne_true]

theorem ipAfterHalt_of_advances {s : State} (h : s.cfg.haltAdvancesIp = true) : ipAfterHalt s = advance s 1 := by
  rw [ipAfterHalt, if_pos h]

theorem exec_halt_eq (u1 u2 u3 : Mode) (s : State) : exec (.halt u1 u2 u3) s = complete s (halt s) := rfl

/-- Settles O36: Halt completes with cell 0 wherever the `ip` after it is an `Int` (`halt_of_ok`), and a run that it
ends HALTED is one that it completed. -/
theorem haltDeliversCellZero : Obligations.HaltDeliversCellZero := by
  intro u1 u2 u3 s
  rw [exec_halt_eq]
  refine ⟨rfl, fun hstays => ?_, fun hadv hfits => ?_, fun hadv hover => ?_, fun t _ hexec ht => ?_⟩
  · rw [halt_of_ok (ipAfterHalt_of_stays hstays)]
    rfl
  · rw [halt_of_ok ((ipAfterHalt_of_advances hadv).trans (advance_eq_ok.mpr ⟨hfits, rfl⟩))]
    rfl
  · rw [halt_of_error ((ipAfterHalt_of_advances hadv).trans (advance_eq_error.mpr ⟨hover, rfl⟩)), complete_error]
  · rw [State.resultPort_of_halted ht]
    rcases halt_cases (s := s) with ⟨n, hhalt, -⟩ | ⟨hhalt, -⟩ <;> rw [hhalt] at hexec <;> cases hexec
    · rfl
    · cases ht

end Sys2Proof.Machine

/-! ### What raising records (60_exceptions.md R220, R229, R231) -/

namespace Sys2Proof.Machine

/-- Settles O37: the codes and details are read off the tables of R27, R220 and R231. -/
theorem raiseRecordsCauseAndDetail : Obligations.RaiseRecordsCauseAndDetail := by
  intro s v
  have hport {status : Status} (hs : s.status = status) (hcause : s.cause = .none) (hinfo : s.causeInfo = 0) :
      s.statusPort = (status.code, 0, 0) := by
    rw [State.statusPort, hs, hcause, hinfo, Cause.code]
  exact ⟨fun _ => rfl, hport, hport, hport, rfl, rfl, rfl, rfl, rfl, rfl, rfl, rfl⟩

end Sys2Proof.Machine

/-! ### Every instruction and every step answers a next state (60_exceptions.md R229) -/

namespace Sys2Proof.Machine

theorem complete_total (s : State) (x : Except Fault State) : ∃ t, complete s x = .next t := by
  cases x with
  | ok t => exact ⟨t, rfl⟩
  | error f => exact ⟨raise f s, rfl⟩

theorem exec_total (i : Instr) (s : State) : ∃ t, exec i s = .next t := by
  cases i with
  | input o1 u2 u3 =>
    cases htarget : inputTarget (encodeOpcode ⟨.input, o1.mode, u2, u3⟩) o1 s with
    | error f => exact ⟨_, exec_input_of_error htarget⟩
    | ok p =>
      cases hq : s.inQ with
      | nil => exact ⟨_, exec_input_of_empty htarget hq⟩
      | cons item rest =>
        rw [exec_input_of_item htarget hq]
        exact complete_total _ _
  | output o1 u2 u3 =>
    cases hoffer : outputOffer o1 s with
    | error f => exact ⟨_, exec_output_of_error u2 u3 hoffer⟩
    | ok p =>
      cases hanswer : nextAnswer s with
      | none => exact ⟨_, exec_output_of_silent u2 u3 hoffer hanswer⟩
      | some answer =>
        obtain ⟨a, rest⟩ := answer
        cases a with
        | accepted => exact ⟨_, exec_output_of_accepted u2 u3 hoffer hanswer⟩
        | sinkFailed => exact ⟨_, exec_output_of_sinkFailed u2 u3 hoffer hanswer⟩
  | add | multiply | jumpIfTrue | jumpIfFalse | testLessThan | testEqual | adjustBase | halt =>
    exact complete_total s _

/-- Settles O44: a machine that is not RUNNING rests, a fault of the fetch is raised, and a fetched instruction answers
a next state (`exec_total`). -/
theorem everyStepGivesANextState : Obligations.EveryStepGivesANextState := by
  intro s
  by_cases hs : s.status = .running
  · cases hfetch : fetchInstr s with
    | error f => exact ⟨_, step_fetch_fault hs hfetch⟩
    | ok i =>
      rw [step_running hs hfetch]
      exact exec_total i s
  · exact ⟨s, step_of_not_running hs⟩

end Sys2Proof.Machine

/-! ### What a faulting instruction has done (60_exceptions.md R220, R222, R230) -/

namespace Sys2Proof.Machine

/-- The four ways in which an instruction of a RUNNING machine ends FAULTED. -/
theorem Effect.faulted_cases {i : Instr} {s t : State} (he : Effect i s t) (hs : s.status = .running)
    (ht : t.status = .faulted) :
    (∃ f, Reported i s f ∧ t = raise f s) ∨
    (∃ q, s.inQ = .unparseable :: q ∧ t = raise .inputParseError (s.setInQ q)) ∨
    (∃ q, s.inQ = .transportFailed :: q ∧ t = raise (.ioError .inputSide) (s.setInQ q)) ∨
    (∃ q, nextAnswer s = some (.sinkFailed, q) ∧ t = raise (.ioError .outputSide) (s.setSinkQ q)) := by
  cases he with
  | faulted f hf => exact .inl ⟨f, hf, rfl⟩
  | unparseable o1 u2 u3 q hi hq => exact .inr (.inl ⟨q, hq, rfl⟩)
  | transportFailed o1 u2 u3 q hi hq => exact .inr (.inr (.inl ⟨q, hq, rfl⟩))
  | sinkFailed o1 u2 u3 q hi hq => exact .inr (.inr (.inr ⟨q, hq, rfl⟩))
  | halted => cases ht
  | heldForInput | heldForOutput | stored | emitted | jumped | adjusted => cases hs.symm.trans ht

/-- A step of a RUNNING machine that ends FAULTED raised one fault, in the state it began in or in the one that has lost
a bad item or a failing answer. -/
theorem step_faulted_cases {s t : State} (hstep : step s = .next t) (hs : s.status = .running)
    (ht : t.status = .faulted) :
    (∃ f, (fetchInstr s = .error f ∨ ∃ i, Reported i s f) ∧ t = raise f s) ∨
    (∃ q, s.inQ = .unparseable :: q ∧ t = raise .inputParseError (s.setInQ q)) ∨
    (∃ q, s.inQ = .transportFailed :: q ∧ t = raise (.ioError .inputSide) (s.setInQ q)) ∨
    (∃ q, nextAnswer s = some (.sinkFailed, q) ∧ t = raise (.ioError .outputSide) (s.setSinkQ q)) := by
  rcases step_cases hstep with ⟨hns, -⟩ | ⟨-, f, hf, rfl⟩ | ⟨-, i, -, he⟩
  · exact absurd hs hns
  · exact .inl ⟨f, .inl hf, rfl⟩
  · rcases he.faulted_cases hs ht with ⟨f, hf, rfl⟩ | hbad
    · exact .inl ⟨f, .inr ⟨i, hf⟩, rfl⟩
    · exact .inr hbad

theorem Reported.cause_ne_ioError {i : Instr} {s : State} {f : Fault} (h : Reported i s f) : f.cause ≠ .ioError := by
  cases h <;> simp [Fault.cause]

theorem fetch_fault_cause_ne_ioError {s : State} {f : Fault} (h : fetchInstr s = .error f) : f.cause ≠ .ioError := by
  rcases fetchInstr_error h with ⟨-, rfl⟩ | ⟨-, rfl⟩ | ⟨-, rfl⟩ <;> simp [Fault.cause]

theorem destIsCell_eq_false {i : Instr} :
    i.destIsCell = false ↔ ∃ o, i.dest? = some o ∧ o.mode = .immediate := by
  unfold Instr.destIsCell
  cases i.dest? <;> simp

/-- Of the faults that operands report only that of an Immediate destination is an AddressingError (R222). -/
theorem Reported.cause_ne_addressingError {i : Instr} {s : State} {f : Fault} (h : Reported i s f)
    (hcell : i.destIsCell = true) : f.cause ≠ .addressingError := by
  cases h with
  | addressing o hd hm => cases hcell.symm.trans (destIsCell_eq_false.mpr ⟨o, hd, hm⟩)
  | literal | relative | overflow | outOfMemory => simp [Fault.cause]

/-- The check of an Immediate destination comes before every other (R117, R228). -/
theorem exec_of_immediateDest {i : Instr} (s : State) (h : i.destIsCell = false) :
    exec i s = .next (raise (.addressingError (encodeOpcode i.opCode)) s) := by
  obtain ⟨o, hd, hm⟩ := destIsCell_eq_false.mp h
  have hbinary {mk : Operand → Operand → Operand → Instr} (o1 o2 : Operand)
      (hmk : mk = .add ∨ mk = .multiply ∨ mk = .testLessThan ∨ mk = .testEqual) :
      exec (mk o1 o2 o) s = .next (raise (.addressingError (encodeOpcode (mk o1 o2 o).opCode)) s) :=
    (binaryInstructionsReportTheFirstCause mk o1 o2 o s _ hmk rfl).1 hm
  cases i with
  | add o1 o2 o3 =>
    cases hd
    exact hbinary o1 o2 (.inl rfl)
  | multiply o1 o2 o3 =>
    cases hd
    exact hbinary o1 o2 (.inr (.inl rfl))
  | testLessThan o1 o2 o3 =>
    cases hd
    exact hbinary o1 o2 (.inr (.inr (.inl rfl)))
  | testEqual o1 o2 o3 =>
    cases hd
    exact hbinary o1 o2 (.inr (.inr (.inr rfl)))
  | input o1 u2 u3 =>
    cases hd
    exact exec_input_of_error (inputTarget_eq_error.mpr (.inl (resolveAddress_eq_error.mpr (.inl ⟨hm, rfl⟩))))
  | output | jumpIfTrue | jumpIfFalse | adjustBase | halt => cases hd

/-- Settles O25: the check of the destination's mode is the first of all (`exec_of_immediateDest`); among the four ways
to end FAULTED (`Effect.faulted_cases`) none else records AddressingError. -/
theorem immediateDestinationsAreRejectedFirst : Obligations.ImmediateDestinationsAreRejectedFirst := by
  intro i s
  refine ⟨exec_of_immediateDest s, fun hcell t hs hexec ht => ?_⟩
  rcases (exec_cases hexec).faulted_cases hs ht with ⟨f, hf, rfl⟩ | ⟨q, -, rfl⟩ | ⟨q, -, rfl⟩ | ⟨q, -, rfl⟩
  · exact hf.cause_ne_addressingError hcell
  all_goals simp [Fault.cause]

/-- Settles O38: `raise` changes STATUS, CAUSE and CAUSE_INFO only, and each of the four ways to end FAULTED
(`step_faulted_cases`) raises in the state before, less at most one item or one answer. -/
theorem faultsHaveNoPartialEffect : Obligations.FaultsHaveNoPartialEffect := by
  intro s t hs hstep ht
  rcases step_faulted_cases hstep hs ht with ⟨f, -, rfl⟩ | ⟨q, hq, rfl⟩ | ⟨q, hq, rfl⟩ | ⟨q, hanswer, rfl⟩
  · exact ⟨rfl, rfl, rfl, rfl, rfl, rfl, rfl, .inl rfl, .inl rfl⟩
  · exact ⟨rfl, rfl, rfl, rfl, rfl, rfl, rfl, .inr (.inl ⟨rfl, hq⟩), .inl rfl⟩
  · exact ⟨rfl, rfl, rfl, rfl, rfl, rfl, rfl, .inr (.inr ⟨rfl, rfl, hq⟩), .inl rfl⟩
  · refine ⟨rfl, rfl, rfl, rfl, rfl, rfl, rfl, .inl rfl, ?_⟩
    rcases nextAnswer_eq_some.mp hanswer with hq | ⟨hempty, -, rfl⟩
    · exact .inr ⟨rfl, rfl, hq⟩
    · exact .inl hempty.symm

end Sys2Proof.Machine

/-! ### What a step leaves unchanged (10_state.md R23, R26, R32; 20_memory.md section 5; 44_io.md R188, R189) -/

namespace Sys2Proof.Machine

section

variable {i : Instr} {s t : State}

theorem Effect.keeps_parameters (he : Effect i s t) : t.cfg = s.cfg ∧ t.sinkRest = s.sinkRest := by
  cases he <;> exact ⟨rfl, rfl⟩

theorem Effect.bp_eq_or_adjustBase (he : Effect i s t) : t.bp = s.bp ∨ ∃ o1 u2 u3, i = .adjustBase o1 u2 u3 := by
  cases he with
  | adjusted o1 u2 u3 x hi hb hf => exact .inr ⟨o1, u2, u3, hi⟩
  | _ => exact .inl rfl

/-- The queue is touched by IN only, at its head (R188). -/
theorem Effect.inQ_eq_or_input (he : Effect i s t) :
    t.inQ = s.inQ ∨ ∃ o1 u2 u3 item, i = .input o1 u2 u3 ∧ s.inQ = item :: t.inQ := by
  cases he with
  | unparseable o1 u2 u3 q hi hq => exact .inr ⟨o1, u2, u3, _, hi, hq⟩
  | transportFailed o1 u2 u3 q hi hq => exact .inr ⟨o1, u2, u3, _, hi, hq⟩
  | stored o d v q hd ha hc hv hin hf =>
    rcases hin with hsame | ⟨o1, u2, u3, hi⟩
    · exact .inl hsame
    · cases hv with
      | computed _ hsame => exact .inl hsame
      | tested _ hsame => exact .inl hsame
      | taken hq => exact .inr ⟨o1, u2, u3, _, hi, hq⟩
  | _ => exact .inl rfl

/-- The output is touched by OUT only, which appends the value it offered (R189). -/
theorem Effect.out_eq_or_output (he : Effect i s t) :
    t.out = s.out ∨
      ∃ o1 u2 u3 x n, i = .output o1 u2 u3 ∧ outputOffer o1 s = .ok (x, n) ∧ t.out = s.out ++ [x] := by
  cases he with
  | emitted o1 u2 u3 x n q hi ht hq => exact .inr ⟨o1, u2, u3, x, n, hi, ht, rfl⟩
  | _ => exact .inl rfl

/-- The sink's answers are used up one by one. -/
theorem Effect.sinkQ_eq_or_nextAnswer (he : Effect i s t) :
    t.sinkQ = s.sinkQ ∨ ∃ a, nextAnswer s = some (a, t.sinkQ) := by
  cases he with
  | emitted o1 u2 u3 x n q hi ht hq => exact .inr ⟨_, hq⟩
  | sinkFailed o1 u2 u3 q hi hq => exact .inr ⟨_, hq⟩
  | _ => exact .inl rfl

/-- Memory is touched by a store in the destination's cell only (R60, R62). -/
theorem Effect.mem_eq_or_store (he : Effect i s t) :
    t.mem = s.mem ∨
      ∃ o d v, i.dest? = some o ∧ resolveAddress (encodeOpcode i.opCode) s o = .ok d ∧
        overCapacity s.cfg d.toNat = false ∧ t.mem = storeCell s.cfg s.mem d.toNat v := by
  cases he with
  | stored o d v q hd ha hc hv hin hf => exact .inr ⟨o, d, v, hd, ha, hc, rfl⟩
  | _ => exact .inl rfl

theorem step_keeps_parameters (hstep : step s = .next t) : t.cfg = s.cfg ∧ t.sinkRest = s.sinkRest := by
  rcases step_cases hstep with ⟨-, rfl⟩ | ⟨-, f, -, rfl⟩ | ⟨-, i, -, he⟩
  · exact ⟨rfl, rfl⟩
  · exact ⟨rfl, rfl⟩
  · exact he.keeps_parameters

theorem step_inQ_eq_or_input (hstep : step s = .next t) :
    t.inQ = s.inQ ∨ ∃ o1 u2 u3 item, fetchInstr s = .ok (.input o1 u2 u3) ∧ s.inQ = item :: t.inQ := by
  rcases step_cases hstep with ⟨-, rfl⟩ | ⟨-, f, -, rfl⟩ | ⟨-, i, hi, he⟩
  · exact .inl rfl
  · exact .inl rfl
  · rcases he.inQ_eq_or_input with hsame | ⟨o1, u2, u3, item, rfl, hq⟩
    · exact .inl hsame
    · exact .inr ⟨o1, u2, u3, item, hi, hq⟩

theorem step_out_eq_or_output (hstep : step s = .next t) :
    t.out = s.out ∨ ∃ o1 u2 u3 x n, fetchInstr s = .ok (.output o1 u2 u3) ∧ outputOffer o1 s = .ok (x, n) ∧
      t.out = s.out ++ [x] := by
  rcases step_cases hstep with ⟨-, rfl⟩ | ⟨-, f, -, rfl⟩ | ⟨-, i, hi, he⟩
  · exact .inl rfl
  · exact .inl rfl
  · rcases he.out_eq_or_output with hsame | ⟨o1, u2, u3, x, n, rfl, hoffer, hout⟩
    · exact .inl hsame
    · exact .inr ⟨o1, u2, u3, x, n, hi, hoffer, hout⟩

theorem step_sinkQ_eq_or_nextAnswer (hstep : step s = .next t) :
    t.sinkQ = s.sinkQ ∨ ∃ a, nextAnswer s = some (a, t.sinkQ) := by
  rcases step_cases hstep with ⟨-, rfl⟩ | ⟨-, f, -, rfl⟩ | ⟨-, i, -, he⟩
  · exact .inl rfl
  · exact .inl rfl
  · exact he.sinkQ_eq_or_nextAnswer

theorem step_mem_eq_or_store (hstep : step s = .next t) :
    t.mem = s.mem ∨
      ∃ i o d v, fetchInstr s = .ok i ∧ i.dest? = some o ∧ resolveAddress (encodeOpcode i.opCode) s o = .ok d ∧
        overCapacity s.cfg d.toNat = false ∧ t.mem = storeCell s.cfg s.mem d.toNat v := by
  rcases step_cases hstep with ⟨-, rfl⟩ | ⟨-, f, -, rfl⟩ | ⟨-, i, hi, he⟩
  · exact .inl rfl
  · exact .inl rfl
  · exact he.mem_eq_or_store.imp_right fun ⟨o, d, v, hstore⟩ => ⟨i, o, d, v, hi, hstore⟩

end

/-- Settles O50: of the effects of an instruction only that of ARB touches `bp`. -/
theorem onlyAdjustBaseChangesTheBase : Obligations.OnlyAdjustBaseChangesTheBase := by
  intro s t hstep hne
  rcases step_cases hstep with ⟨-, rfl⟩ | ⟨-, f, -, rfl⟩ | ⟨-, i, hi, he⟩
  · exact absurd rfl hne
  · exact absurd rfl hne
  · obtain ⟨o1, u2, u3, rfl⟩ := he.bp_eq_or_adjustBase.resolve_left hne
    exact ⟨o1, u2, u3, hi⟩

/-- Settles O51: the two frames of the channels (`step_inQ_eq_or_input`, `step_out_eq_or_output`). -/
theorem onlyInputAndOutputTouchTheChannels : Obligations.OnlyInputAndOutputTouchTheChannels :=
  fun _ _ hstep => ⟨step_inQ_eq_or_input hstep, step_out_eq_or_output hstep⟩

/-- Settles O52: a step that touches memory is one store in its destination's cell (`step_mem_eq_or_store`), which keeps
every other cell. -/
theorem aStepWritesOnlyItsDestinationCell : Obligations.AStepWritesOnlyItsDestinationCell := by
  intro s t hwf hstep
  rcases step_mem_eq_or_store hstep with hsame | ⟨i, o, d, v, hi, hdest, haddr, hcap, hmem⟩
  · exact .inl hsame
  · refine .inr ⟨i, o, d, hi, hdest, haddr, fun c hc => ?_⟩
    rw [hmem]
    exact readCell_storeCell_other v hwf hcap hc

/-- Settles O53: a step that touches memory is one store (`step_mem_eq_or_store`), which keeps the extent below it and
makes it GROW's, which is greater, at or beyond it. -/
theorem theExtentNeverShrinks : Obligations.TheExtentNeverShrinks := by
  intro s t hstep
  rcases step_mem_eq_or_store hstep with hsame | ⟨i, o, d, v, hi, hdest, haddr, hcap, hmem⟩
  · rw [hsame]
    exact ⟨Nat.le_refl _, fun hne => absurd rfl hne⟩
  · rw [hmem]
    by_cases hbelow : d.toNat < s.mem.extent
    · rw [storeCell_extent_below v hbelow]
      exact ⟨Nat.le_refl _, fun hne => absurd rfl hne⟩
    · have hbeyond : s.mem.extent ≤ d.toNat := Nat.not_lt.mp hbelow
      have hgrow := growExtent_gt s.mem.extent hcap
      rw [storeCell_extent_beyond v hbeyond]
      exact ⟨by omega, fun _ => ⟨i, o, d, hi, hdest, haddr, hbeyond, rfl⟩⟩

/-- Settles O54: no effect touches the two fields (`step_keeps_parameters`). -/
theorem parametersAreFixed : Obligations.ParametersAreFixed := fun _ _ => step_keeps_parameters

end Sys2Proof.Machine

/-! ### Fetching, field by field (42_execution_loop.md R151 to R153, 40_decoder.md R116) -/

namespace Sys2Proof.Machine

section

variable {s : State} {c : OpCode} {v : Int}

/-- A literal that the kind has is read from its cell when the address of that is an `Int`; one that the kind does not
have is not looked at (R116). -/
theorem fetchLiteral_of_fits {n k : Nat} (h0 : 0 ≤ s.ip) (hfits : k ≤ n → fits s.cfg.width (s.ip + k) = true) :
    ∃ l, fetchLiteral s n k = .ok l ∧ (k ≤ n → l = readCell s.mem (s.ip.toNat + k)) := by
  by_cases hk : k ≤ n
  · have haddr : narrow s.cfg (s.ip + k) = .ok (s.ip + k) := narrow_eq_ok.mpr ⟨hfits hk, rfl⟩
    have hread : memRead s.mem (s.ip + k) = .ok (readCell s.mem (s.ip + k).toNat) :=
      memRead_eq_ok.mpr ⟨by omega, rfl⟩
    refine ⟨_, ?_, fun _ => by rw [← Int.toNat_add_nat h0]⟩
    rw [fetchLiteral, if_pos hk]
    exact except_bind_eq_ok.mpr ⟨_, haddr, hread⟩
  · exact ⟨0, by rw [fetchLiteral, if_neg hk], fun h => absurd h hk⟩

/-- The tagging looks at the literals within the arity only (R116). -/
theorem build_congr {l1 l2 l3 l1' l2' l3' : Int} (h1 : 1 ≤ c.kind.arity → l1 = l1')
    (h2 : 2 ≤ c.kind.arity → l2 = l2') (h3 : 3 ≤ c.kind.arity → l3 = l3') : build c l1 l2 l3 = build c l1' l2' l3' := by
  obtain ⟨k, m1, m2, m3⟩ := c
  cases k <;> simp_all [build, Kind.arity]

theorem decodePhase_of_ok (h : decodeOpcode v = .ok c) : decodePhase v = .ok c := by
  simp only [decodePhase, h]

/-- A fetch whose opcode integer decodes can fault on the address of a literal only (R226, R228 item 3). -/
theorem fetchInstr_error_of_decode {e : Fault} (hv : memRead s.mem s.ip = .ok v) (hc : decodeOpcode v = .ok c)
    (h : fetchInstr s = .error e) : e = .overflow := by
  obtain ⟨h0, -⟩ := memRead_eq_ok.mp hv
  have hlit {n k : Nat} (h : fetchLiteral s n k = .error e) : e = .overflow := by
    rcases fetchLiteral_error h with ⟨-, ⟨-, he⟩ | ⟨-, hneg, -⟩⟩
    · exact he
    · omega
  rcases except_bind_eq_error.mp h with h | ⟨_, hv', h⟩
  · cases hv.symm.trans h
  cases hv.symm.trans hv'
  rcases except_bind_eq_error.mp h with h | ⟨_, hc', h⟩
  · cases (decodePhase_of_ok hc).symm.trans h
  rcases except_bind_eq_error.mp h with h | ⟨_, -, h⟩
  · exact hlit h
  rcases except_bind_eq_error.mp h with h | ⟨_, -, h⟩
  · exact hlit h
  rcases except_bind_eq_error.mp h with h | ⟨_, -, h⟩
  · exact hlit h
  cases h

/-- A fetch that succeeds has found the address of every literal to be an `Int`. -/
theorem fits_of_fetchInstr_ok {i : Instr} {k : Nat} (hv : memRead s.mem s.ip = .ok v) (hc : decodeOpcode v = .ok c)
    (h : fetchInstr s = .ok i) (hk1 : 1 ≤ k) (hk : k ≤ c.kind.arity) : fits s.cfg.width (s.ip + k) = true := by
  have hlit {n k : Nat} {l : Int} (hl : fetchLiteral s n k = .ok l) (hk : k ≤ n) :
      fits s.cfg.width (s.ip + k) = true := by
    rcases fetchLiteral_ok hl with ⟨-, hfits, -⟩ | ⟨hbeyond, -⟩
    · exact hfits
    · omega
  obtain ⟨v', c', l1, l2, l3, hv', hc', h1, h2, h3, -⟩ := fetchInstr_eq_ok.mp h
  cases hv.symm.trans hv'
  cases hc.symm.trans hc'
  have harity : c.kind.arity ≤ 3 := by cases c.kind <;> decide
  obtain rfl | rfl | rfl : k = 1 ∨ k = 2 ∨ k = 3 := by omega
  · exact hlit h1 hk
  · exact hlit h2 hk
  · exact hlit h3 hk

/-- The instruction at `ip` is the one that its four cells decode to, once the addresses of its literals are `Int`s
(R116). -/
theorem fetchInstr_of_decode {i : Instr} (h0 : 0 ≤ s.ip)
    (hfits : ∀ k : Nat, 1 ≤ k → k ≤ i.opCode.kind.arity → fits s.cfg.width (s.ip + k) = true)
    (hdecode : decode [readCell s.mem s.ip.toNat, readCell s.mem (s.ip.toNat + 1), readCell s.mem (s.ip.toNat + 2),
      readCell s.mem (s.ip.toNat + 3)] = .ok i) : fetchInstr s = .ok i := by
  obtain ⟨c, hc, rfl⟩ := decode_eq_ok.mp hdecode
  rw [build_opCode] at hfits
  obtain ⟨l1, h1, e1⟩ := fetchLiteral_of_fits (n := c.kind.arity) (k := 1) h0 (hfits 1 (by decide))
  obtain ⟨l2, h2, e2⟩ := fetchLiteral_of_fits (n := c.kind.arity) (k := 2) h0 (hfits 2 (by decide))
  obtain ⟨l3, h3, e3⟩ := fetchLiteral_of_fits (n := c.kind.arity) (k := 3) h0 (hfits 3 (by decide))
  exact fetchInstr_eq_ok.mpr ⟨_, c, l1, l2, l3, memRead_eq_ok.mpr ⟨h0, rfl⟩, hc, h1, h2, h3,
    (build_congr e1 e2 e3).symm⟩

end

/-- Settles O40: the cells are fetched as that instruction (`fetchInstr_of_decode`), which a RUNNING machine
executes. -/
theorem stepRunsTheDecodedInstruction : Obligations.StepRunsTheDecodedInstruction :=
  fun _ _ hs h0 hfits hdecode => step_running hs (fetchInstr_of_decode h0 hfits hdecode)

theorem decodeOpcode_zero : decodeOpcode 0 = .error (.malformed 0) := by
  decide

/-- Settles O41: a negative `ip` faults on the read; beyond the extent the read gives 0, which does not decode. -/
theorem fetchOutsideMemoryFaults : Obligations.FetchOutsideMemoryFaults := by
  intro s hs
  refine ⟨fun hneg => step_fetch_fault hs ?_, fun h0 hbeyond => step_fetch_fault hs ?_⟩
  · exact except_bind_eq_error.mpr (.inl (memRead_eq_error.mpr ⟨hneg, rfl⟩))
  · exact fetchInstr_malformed (memRead_eq_ok.mpr ⟨h0, (readCell_of_extent_le hbeyond).symm⟩) decodeOpcode_zero

/-- Settles O43: the fetch does not succeed (`fits_of_fetchInstr_ok`), and after a good opcode integer Overflow is its
only fault (`fetchInstr_error_of_decode`). -/
theorem literalAddressesOverflowBeforeAddressing : Obligations.LiteralAddressesOverflowBeforeAddressing := by
  intro s v c k hs hv hc hk1 hk hover
  cases hfetch : fetchInstr s with
  | ok i => cases hover.symm.trans (fits_of_fetchInstr_ok hv hc hfetch hk1 hk)
  | error e =>
    obtain rfl := fetchInstr_error_of_decode hv hc hfetch
    exact step_fetch_fault hs hfetch

end Sys2Proof.Machine

/-! ### Holds (42_execution_loop.md R159, 44_io.md R181, R186) -/

namespace Sys2Proof.Machine

section

variable {s : State}

theorem State.of_heldForInput (h : s.heldForInput = true) :
    s.status = .running ∧ ∃ o1 u2 u3 d n, fetchInstr s = .ok (.input o1 u2 u3) ∧
      inputTarget (encodeOpcode ⟨.input, o1.mode, u2, u3⟩) o1 s = .ok (d, n) ∧ s.inQ = [] := by
  unfold State.heldForInput at h
  split at h
  · next hs =>
    split at h
    · next o1 u2 u3 hi =>
      split at h
      · next p htarget => exact ⟨hs, o1, u2, u3, p.1, p.2, hi, htarget, List.isEmpty_iff.mp h⟩
      · cases h
    · cases h
  · cases h

/-- A value is offered exactly while a RUNNING machine has fetched an Output whose checks pass. -/
theorem State.offered_eq_some {x : Int} :
    s.offered = some x ↔ s.status = .running ∧ ∃ o1 u2 u3 n, fetchInstr s = .ok (.output o1 u2 u3) ∧
      outputOffer o1 s = .ok (x, n) := by
  constructor
  · intro h
    unfold State.offered at h
    split at h
    · next hs =>
      split at h
      · next o1 u2 u3 hi =>
        split at h
        · next y n hoffer =>
          cases h
          exact ⟨hs, o1, u2, u3, n, hi, hoffer⟩
        · cases h
      · cases h
    · cases h
  · rintro ⟨hs, o1, u2, u3, n, hi, hoffer⟩
    simp only [State.offered, hs, hi, hoffer]

theorem State.heldForOutput_eq_true :
    s.heldForOutput = true ↔ (∃ x, s.offered = some x) ∧ nextAnswer s = none := by
  rw [State.heldForOutput, Bool.and_eq_true, Option.isSome_iff_exists, Option.isNone_iff_eq_none]

/-- A sink that is silent has no answer given and no standing one (log 5). -/
theorem nextAnswer_eq_none : nextAnswer s = none ↔ s.sinkQ = [] ∧ s.sinkRest = none := by
  unfold nextAnswer
  cases s.sinkQ with
  | nil => cases s.sinkRest <;> simp
  | cons => simp

/-- The fetch does not look at the channels. -/
theorem fetchInstr_setInQ (s : State) (q : List InItem) : fetchInstr (s.setInQ q) = fetchInstr s := rfl

theorem fetchInstr_setSinkQ (s : State) (q : List SinkAnswer) : fetchInstr (s.setSinkQ q) = fetchInstr s := rfl

end

/-- Settles O45: a held IN has its target settled and finds the queue empty, so it rests; the value supplied is then the
whole queue, and IN takes it (`exec_input_of_value`). -/
theorem anInputHoldLastsUntilAnItemComes : Obligations.AnInputHoldLastsUntilAnItemComes := by
  intro s x hheld
  obtain ⟨hs, o1, u2, u3, d, n, hi, htarget, hempty⟩ := State.of_heldForInput hheld
  obtain ⟨hd, hcap, -, -⟩ := inputTarget_eq_ok.mp htarget
  refine ⟨o1, u2, u3, d, hi, hd, hempty, ?_, fun hwf hx => ⟨_, storedAt_storeCell x hwf hcap, ?_⟩⟩
  · rw [step_running hs hi]
    exact exec_input_of_empty htarget hempty
  · have hsupply : s.supply (.value x) = s.setInQ [.value x] := by
      rw [State.supply, hempty, queuedItem_of_fits (item := .value x) hx, List.nil_append]
    have hback : (s.setInQ [.value x]).setInQ [] = s := by
      rw [← hempty]
      rfl
    rw [hsupply, step_running (s := s.setInQ [.value x]) hs ((fetchInstr_setInQ s _).trans hi),
      exec_input_of_value (s := s.setInQ [.value x]) htarget rfl, hback]
    rfl

/-- Settles O46: a held OUT offers its value to a sink that has given no answer, so it rests; the answer given is then
the next one, and OUT emits (`exec_output_of_accepted`). -/
theorem anOutputHoldLastsUntilTheSinkAnswers : Obligations.AnOutputHoldLastsUntilTheSinkAnswers := by
  intro s hheld
  obtain ⟨⟨x, hoffered⟩, hsilent⟩ := State.heldForOutput_eq_true.mp hheld
  obtain ⟨hs, o1, u2, u3, n, hi, hoffer⟩ := State.offered_eq_some.mp hoffered
  obtain ⟨hx, -, rfl⟩ := outputOffer_eq_ok.mp hoffer
  obtain ⟨hempty, -⟩ := nextAnswer_eq_none.mp hsilent
  refine ⟨o1, u2, u3, x, hi, hx, hoffered, ?_, ?_⟩
  · rw [step_running hs hi]
    exact exec_output_of_silent u2 u3 hoffer hsilent
  · rw [hempty, List.nil_append, step_running (s := s.setSinkQ [.accepted]) hs ((fetchInstr_setSinkQ s _).trans hi),
      exec_output_of_accepted (s := s.setSinkQ [.accepted]) u2 u3 hoffer rfl]
    rw [← hempty]
    rfl

end Sys2Proof.Machine

/-! ### A sink that accepts (70_reset_and_hazards.md R265, 44_io.md R186) -/

namespace Sys2Proof.Machine

theorem SinkAccepts.nextAnswer {s : State} (h : SinkAccepts s) : ∃ rest, nextAnswer s = some (.accepted, rest) := by
  obtain ⟨hgiven, hrest⟩ := h
  cases hq : s.sinkQ with
  | nil => exact ⟨[], nextAnswer_eq_some.mpr (.inr ⟨hq, hrest, rfl⟩)⟩
  | cons a rest =>
    obtain rfl : a = .accepted := hgiven a (by simp [hq])
    exact ⟨rest, nextAnswer_eq_some.mpr (.inl hq)⟩

/-- Using up an answer leaves no other answers than there were. -/
theorem mem_of_nextAnswer {s : State} {a b : SinkAnswer} {rest : List SinkAnswer}
    (h : nextAnswer s = some (a, rest)) (hb : b ∈ rest) : b ∈ s.sinkQ := by
  rcases nextAnswer_eq_some.mp h with hq | ⟨-, -, rfl⟩
  · rw [hq]
    exact List.mem_cons_of_mem a hb
  · cases hb

theorem SinkAccepts.not_heldForOutput {s : State} (h : SinkAccepts s) : s.heldForOutput = false := by
  obtain ⟨rest, hanswer⟩ := h.nextAnswer
  rw [← Bool.not_eq_true, State.heldForOutput_eq_true, hanswer]
  simp

theorem SinkAccepts.step {s t : State} (h : SinkAccepts s) (hstep : step s = .next t) : SinkAccepts t := by
  obtain ⟨hgiven, hrest⟩ := h
  refine ⟨fun b hb => hgiven b ?_, (step_keeps_parameters hstep).2.trans hrest⟩
  rcases step_sinkQ_eq_or_nextAnswer hstep with hsame | ⟨a, hanswer⟩
  · rwa [← hsame]
  · exact mem_of_nextAnswer hanswer hb

/-- An IOError of the output side is the sink's failing answer (R225). -/
theorem step_outputSide_ioError {s t : State} (hs : s.status = .running) (hstep : step s = .next t)
    (ht : t.status = .faulted) (hcause : t.cause = .ioError) (hinfo : t.causeInfo = 1) :
    ∃ q, nextAnswer s = some (.sinkFailed, q) := by
  rcases step_faulted_cases hstep hs ht with ⟨f, hf, rfl⟩ | ⟨q, -, rfl⟩ | ⟨q, -, rfl⟩ | ⟨q, hanswer, -⟩
  · rcases hf with hfetch | ⟨i, hreport⟩
    · exact absurd hcause (fetch_fault_cause_ne_ioError hfetch)
    · exact absurd hcause hreport.cause_ne_ioError
  · cases hcause
  · cases hinfo
  · exact ⟨q, hanswer⟩

theorem Status.code_eq_three {st : Status} : st.code = 3 ↔ st = .faulted := by
  cases st <;> simp [Status.code]

theorem Cause.code_eq_five {c : Cause} : c.code = 5 ↔ c = .ioError := by
  cases c <;> simp [Cause.code]

/-- Settles O31: of a state, the sink's next answer is Accepted and a step leaves only such answers; of a run, an
IOError of the output side needs a failing answer (`step_outputSide_ioError`), and none is given or standing. -/
theorem anAcceptingSinkNeverHolds : Obligations.AnAcceptingSinkNeverHolds := by
  refine ⟨fun s h => ⟨h.not_heldForOutput, fun t => h.step⟩, fun ev st hrun hsink n hev hs hport => ?_⟩
  obtain ⟨hgiven, hrest⟩ := hsink.1 n
  have hstep : step (st n) = .next (st (n + 1)) := by
    have h := hrun n
    rwa [hev] at h
  simp only [State.statusPort, Prod.mk.injEq, Status.code_eq_three, Cause.code_eq_five] at hport
  obtain ⟨ht, hcause, hinfo⟩ := hport
  obtain ⟨q, hanswer⟩ := step_outputSide_ioError hs hstep ht hcause hinfo
  rcases nextAnswer_eq_some.mp hanswer with hq | ⟨-, hstanding, -⟩
  · cases hgiven .sinkFailed (by simp [hq])
  · exact hrest hstanding

end Sys2Proof.Machine

/-! ### The input queue along a run (10_state.md R30, 44_io.md R188, 70_reset_and_hazards.md R265) -/

namespace Sys2Proof.Machine

/-- What an event of a run does to the queue: an Input takes the head, or the event's own items are appended. -/
theorem Event.answer_queue {e : Event} {s t : State} (h : e.answer s = .next t) :
    t.cfg = s.cfg ∧
      (t.inQ = s.inQ ++ e.items s.cfg ∨
        (e = .step ∧ ∃ o1 u2 u3 item, fetchInstr s = .ok (.input o1 u2 u3) ∧ s.inQ = item :: t.inQ)) := by
  cases e with
  | host a =>
    obtain ⟨hcfg, hq⟩ := act_queue h
    exact ⟨hcfg, .inl hq⟩
  | step =>
    refine ⟨(step_keeps_parameters h).1, ?_⟩
    rcases step_inQ_eq_or_input h with hsame | htaken
    · exact .inl (hsame.trans (List.append_nil _).symm)
    · exact .inr ⟨rfl, htaken⟩

/-- How many of the items supplied have been taken when `n` events are over: those that are not in the queue. -/
def takenBy (ev : Nat → Event) (st : Nat → State) (n : Nat) : Nat :=
  (itemsBy ev (st 0) n).length - (st n).inQ.length

section

variable {ev : Nat → Event} {st : Nat → State}

theorem IsRun.cfg_eq (h : IsRun ev st) (n : Nat) : (st n).cfg = (st 0).cfg := by
  induction n with
  | zero => rfl
  | succ n ih => exact (Event.answer_queue (h n)).1.trans ih

/-- The queue is what is left of the items supplied after the first of them have gone. -/
theorem IsRun.inQ_suffix (h : IsRun ev st) (n : Nat) : (st n).inQ <:+ itemsBy ev (st 0) n := by
  induction n with
  | zero =>
    rw [itemsBy]
    simp
  | succ n ih =>
    rw [itemsBy_succ, ← h.cfg_eq n]
    rcases (Event.answer_queue (h n)).2 with hq | ⟨hstep, o1, u2, u3, item, -, hq⟩
    · obtain ⟨gone, hgone⟩ := ih
      exact ⟨gone, by rw [hq, ← List.append_assoc, hgone]⟩
    · rw [hstep, Event.items, List.append_nil]
      exact ((List.suffix_cons item _).trans (by rw [hq])).trans ih

theorem IsRun.inQ_eq_drop (h : IsRun ev st) (n : Nat) :
    (st n).inQ = (itemsBy ev (st 0) n).drop (takenBy ev st n) :=
  List.suffix_iff_eq_drop.mp (h.inQ_suffix n)

/-- An event takes at most one item, and only an Input takes it. -/
theorem IsRun.takenBy_succ (h : IsRun ev st) (n : Nat) :
    takenBy ev st (n + 1) = takenBy ev st n ∨
      (takenBy ev st (n + 1) = takenBy ev st n + 1 ∧ ev n = .step ∧
        ∃ o1 u2 u3, fetchInstr (st n) = .ok (.input o1 u2 u3)) := by
  have hle := (h.inQ_suffix n).length_le
  have hitems : (itemsBy ev (st 0) (n + 1)).length =
      (itemsBy ev (st 0) n).length + ((ev n).items (st n).cfg).length := by
    rw [itemsBy_succ, List.length_append, h.cfg_eq n]
  rcases (Event.answer_queue (h n)).2 with hq | ⟨hstep, o1, u2, u3, item, hi, hq⟩
  · left
    have hlen := congrArg List.length hq
    rw [List.length_append] at hlen
    simp only [takenBy]
    omega
  · right
    refine ⟨?_, hstep, o1, u2, u3, hi⟩
    have hlen := congrArg List.length hq
    rw [List.length_cons] at hlen
    rw [hstep, Event.items, List.length_nil] at hitems
    simp only [takenBy]
    omega

/-- The item waiting is the next one supplied. -/
theorem IsRun.head_eq (h : IsRun ev st) {n : Nat} {item : InItem} {rest : List InItem}
    (hq : (st n).inQ = item :: rest) : (itemsBy ev (st 0) n)[takenBy ev st n]? = some item := by
  rw [← List.head?_drop, ← h.inQ_eq_drop, hq, List.head?_cons]

end

/-- Settles O59: the queue is a suffix of the items supplied (`IsRun.inQ_suffix`), and `takenBy` counts the items before
it; the item waiting is then the next one supplied, which a closed or an open stream names. -/
theorem inputsComeInTheOrderTheHostSuppliesThem : Obligations.InputsComeInTheOrderTheHostSuppliesThem := by
  intro ev st hrun
  refine ⟨takenBy ev st, ?_, fun n => ⟨hrun.inQ_eq_drop n, Nat.sub_le _ _, hrun.takenBy_succ n, ?_, ?_⟩⟩
  · simp [takenBy, itemsBy]
  · rintro xs item rest ⟨hstream, -⟩ hq
    exact hstream n _ item (hrun.head_eq hq)
  · rintro xs item rest ⟨hstream, -⟩ hq
    obtain ⟨later, hlater⟩ := hstream n
    have hnext := hrun.head_eq hq
    rw [← hlater, List.getElem?_append_left (List.getElem?_eq_some_iff.mp hnext).1, hnext]

end Sys2Proof.Machine

/-! ### Machines that differ in the extent and the growth policy (20_memory.md R56) -/

namespace Sys2Proof.Machine

/-- Two machines of which no program can tell one from the other: equal but for the extent and the growth policy, with
memories in canonical form. -/
structure Twin (s t : State) : Prop where
  eq : EqUpToExtent s t
  left_wf : s.mem.wf = true
  right_wf : t.mem.wf = true

/-- Two effects that end in the same fault, or in twins. -/
inductive TwinResult : Except Fault State → Except Fault State → Prop where
  | ok {s t : State} (h : Twin s t) : TwinResult (.ok s) (.ok t)
  | error (e : Fault) : TwinResult (.error e) (.error e)

/-- Two answers with twins as next states. -/
def TwinAnswer (x y : Answer) : Prop := ∃ s t, x = .next s ∧ y = .next t ∧ Twin s t

/-- A check that both machines make with the same outcome comes before what they do next. -/
theorem TwinResult.bind {α : Type} {x : Except Fault α} {f g : α → Except Fault State}
    (h : ∀ a, x = .ok a → TwinResult (f a) (g a)) : TwinResult (x >>= f) (x >>= g) := by
  cases x with
  | ok a => exact h a rfl
  | error e => exact .error e

namespace Twin

section

variable {s t : State} (h : Twin s t)

include h

/-! What both machines hold and compute alike. -/

theorem status_eq : t.status = s.status := by rw [h.eq]
theorem ip_eq : t.ip = s.ip := by rw [h.eq]
theorem bp_eq : t.bp = s.bp := by rw [h.eq]
theorem inQ_eq : t.inQ = s.inQ := by rw [h.eq]
theorem width_eq : t.cfg.width = s.cfg.width := by rw [h.eq]
theorem memMax_eq : t.cfg.memMax = s.cfg.memMax := by rw [h.eq]
theorem lazyJumpTarget_eq : t.cfg.lazyJumpTarget = s.cfg.lazyJumpTarget := by rw [h.eq]
theorem haltAdvancesIp_eq : t.cfg.haltAdvancesIp = s.cfg.haltAdvancesIp := by rw [h.eq]
theorem cells_eq : t.mem.cells = s.mem.cells := by rw [h.eq]

/-- In canonical form a cell at or beyond the extent reads as any other that is not listed. -/
theorem readCell_eq (a : Nat) : readCell t.mem a = readCell s.mem a := by
  rw [readCell_eq_lookup h.right_wf, readCell_eq_lookup h.left_wf, h.cells_eq]

theorem memRead_eq (a : Int) : memRead t.mem a = memRead s.mem a := memRead_congr fun _ => h.readCell_eq _

theorem narrow_eq (v : Int) : narrow t.cfg v = narrow s.cfg v := by rw [narrow, narrow, h.width_eq]

theorem advance_eq (n : Nat) : advance t n = advance s n := by rw [advance, advance, h.narrow_eq, h.ip_eq]

theorem overCapacity_eq (a : Nat) : overCapacity t.cfg a = overCapacity s.cfg a := by
  rw [overCapacity, overCapacity, h.memMax_eq]

theorem checkCapacity_eq (a : Int) : checkCapacity t.cfg a = checkCapacity s.cfg a := by
  rw [checkCapacity, checkCapacity, h.overCapacity_eq]

theorem relativeAddress_eq (lit : Int) : relativeAddress t lit = relativeAddress s lit := by
  rw [relativeAddress, relativeAddress, h.narrow_eq, h.bp_eq]

theorem resolveValue_eq (o : Operand) : resolveValue t o = resolveValue s o := by
  simp only [resolveValue, h.relativeAddress_eq, h.memRead_eq]

theorem resolveDest_eq (v : Int) (o : Operand) : resolveDest v t o = resolveDest v s o := by
  simp only [resolveDest, resolveAddress, h.relativeAddress_eq, h.checkCapacity_eq]

theorem inputTarget_eq (v : Int) (o1 : Operand) : inputTarget v o1 t = inputTarget v o1 s := by
  simp only [inputTarget, h.resolveDest_eq, h.advance_eq]

theorem outputOffer_eq (o1 : Operand) : outputOffer o1 t = outputOffer o1 s := by
  simp only [outputOffer, h.resolveValue_eq, h.advance_eq]

theorem nextAnswer_eq : nextAnswer t = nextAnswer s := by
  rw [h.eq]
  rfl

theorem ipAfterHalt_eq : ipAfterHalt t = ipAfterHalt s := by
  rw [ipAfterHalt, ipAfterHalt, h.haltAdvancesIp_eq, h.advance_eq, h.ip_eq]

theorem f3Result_eq (f : Int → Int → Int) (bounded : Bool) : f3Result t.cfg f bounded = f3Result s.cfg f bounded := by
  funext a b
  rw [f3Result, f3Result, h.narrow_eq]

theorem fetchInstr_eq : fetchInstr t = fetchInstr s := by
  simp only [fetchInstr, fetchLiteral, h.memRead_eq, h.narrow_eq, h.ip_eq]

/-! What both machines may do and stay twins. -/

theorem setIp (v : Int) : Twin (s.setIp v) (t.setIp v) := ⟨congrArg (State.setIp · v) h.eq, h.left_wf, h.right_wf⟩
theorem setBp (v : Int) : Twin (s.setBp v) (t.setBp v) := ⟨congrArg (State.setBp · v) h.eq, h.left_wf, h.right_wf⟩
theorem setInQ (q : List InItem) : Twin (s.setInQ q) (t.setInQ q) :=
  ⟨congrArg (State.setInQ · q) h.eq, h.left_wf, h.right_wf⟩
theorem setSinkQ (q : List SinkAnswer) : Twin (s.setSinkQ q) (t.setSinkQ q) :=
  ⟨congrArg (State.setSinkQ · q) h.eq, h.left_wf, h.right_wf⟩
theorem emit (x : Int) : Twin (s.emit x) (t.emit x) := ⟨congrArg (State.emit · x) h.eq, h.left_wf, h.right_wf⟩
theorem finish (r : Int) : Twin (s.finish r) (t.finish r) := ⟨congrArg (State.finish · r) h.eq, h.left_wf, h.right_wf⟩
theorem raise (f : Fault) : Twin (raise f s) (raise f t) :=
  ⟨congrArg (Machine.raise f) h.eq, h.left_wf, h.right_wf⟩

/-- Both machines store the same cells, whatever room either makes (R54, R56). -/
theorem store {d : Nat} (v : Int) (hcap : overCapacity s.cfg d = false) :
    Twin (s.setMem (storeCell s.cfg s.mem d v)) (t.setMem (storeCell t.cfg t.mem d v)) := by
  have hcells : (storeCell s.cfg s.mem d v).cells = (storeCell t.cfg t.mem d v).cells := by
    rw [storeCell_cells d v h.left_wf, storeCell_cells d v h.right_wf, h.cells_eq]
  refine ⟨?_, storeCell_wf v h.left_wf hcap, storeCell_wf v h.right_wf ((h.overCapacity_eq d).trans hcap)⟩
  rw [EqUpToExtent, State.setMem_mem, hcells]
  exact congrArg (·.setMem (storeCell t.cfg t.mem d v)) h.eq

theorem complete {x y : Except Fault State} (hr : TwinResult x y) :
    TwinAnswer (Machine.complete s x) (Machine.complete t y) := by
  cases hr with
  | ok h' => exact ⟨_, _, rfl, rfl, h'⟩
  | error e => exact ⟨_, _, rfl, rfl, h.raise e⟩

/-! The effects of the instructions. -/

theorem binaryToCell (op : Int → Int → Except Fault Int) (k : Kind) (o1 o2 o3 : Operand) :
    TwinResult (binaryToCell op k o1 o2 o3 s) (binaryToCell op k o1 o2 o3 t) := by
  simp only [Machine.binaryToCell, h.resolveValue_eq, h.resolveDest_eq, h.advance_eq]
  refine .bind fun _ _ => .bind fun a _ => .bind fun b _ => .bind fun d hd => .bind fun v _ => .bind fun n _ => ?_
  rw [memWrite_resolved hd, memWrite_resolved ((h.resolveDest_eq _ _).trans hd)]
  exact .ok ((h.store v (resolveDest_eq_ok.mp hd).2).setIp n)

theorem fallThrough : TwinResult (fallThrough s) (fallThrough t) := by
  simp only [Machine.fallThrough, h.advance_eq]
  exact .bind fun n _ => .ok (h.setIp n)

theorem jump (cond : Int → Bool) (o1 o2 : Operand) : TwinResult (jump cond o1 o2 s) (jump cond o1 o2 t) := by
  simp only [Machine.jump, h.resolveValue_eq, h.lazyJumpTarget_eq]
  refine .bind fun c _ => ?_
  split
  · exact h.fallThrough
  · refine .bind fun n _ => ?_
    split
    · exact .ok (h.setIp n)
    · exact h.fallThrough

theorem adjustBase (o1 : Operand) : TwinResult (adjustBase o1 s) (adjustBase o1 t) := by
  simp only [Machine.adjustBase, h.resolveValue_eq, h.narrow_eq, h.bp_eq, h.advance_eq]
  exact .bind fun x _ => .bind fun base _ => .bind fun n _ => .ok ((h.setBp base).setIp n)

theorem halt : TwinResult (halt s) (halt t) := by
  simp only [Machine.halt, h.ipAfterHalt_eq, h.memRead_eq]
  exact .bind fun n _ => .bind fun r _ => .ok ((h.finish r).setIp n)

theorem exec_input (o1 : Operand) (u2 u3 : Mode) :
    TwinAnswer (exec (.input o1 u2 u3) s) (exec (.input o1 u2 u3) t) := by
  cases htarget : inputTarget (encodeOpcode ⟨.input, o1.mode, u2, u3⟩) o1 s with
  | error f =>
    exact ⟨_, _, exec_input_of_error htarget, exec_input_of_error ((h.inputTarget_eq _ _).trans htarget), h.raise f⟩
  | ok p =>
    obtain ⟨d, n⟩ := p
    have htarget' := (h.inputTarget_eq _ _).trans htarget
    cases hq : s.inQ with
    | nil => exact ⟨_, _, exec_input_of_empty htarget hq, exec_input_of_empty htarget' (h.inQ_eq.trans hq), h⟩
    | cons item rest =>
      rw [exec_input_of_item htarget hq, exec_input_of_item htarget' (h.inQ_eq.trans hq)]
      refine (h.setInQ rest).complete ?_
      cases item with
      | value x =>
        obtain ⟨hd, hcap, -, -⟩ := inputTarget_eq_ok.mp htarget
        have h0 := resolveAddress_nonneg hd
        have hcap' := (h.overCapacity_eq _).trans hcap
        simp only [takeItem, State.setInQ_cfg, State.setInQ_mem, memWrite_of_good _ x h0 hcap,
          memWrite_of_good _ x h0 hcap']
        exact .ok (((h.setInQ rest).store x hcap).setIp n)
      | unparseable | transportFailed => exact .error _

theorem exec_output (o1 : Operand) (u2 u3 : Mode) :
    TwinAnswer (exec (.output o1 u2 u3) s) (exec (.output o1 u2 u3) t) := by
  cases hoffer : outputOffer o1 s with
  | error f =>
    exact ⟨_, _, exec_output_of_error u2 u3 hoffer, exec_output_of_error u2 u3 ((h.outputOffer_eq _).trans hoffer),
      h.raise f⟩
  | ok p =>
    obtain ⟨x, n⟩ := p
    have hoffer' := (h.outputOffer_eq _).trans hoffer
    cases hanswer : nextAnswer s with
    | none =>
      exact ⟨_, _, exec_output_of_silent u2 u3 hoffer hanswer,
        exec_output_of_silent u2 u3 hoffer' (h.nextAnswer_eq.trans hanswer), h⟩
    | some answer =>
      obtain ⟨a, rest⟩ := answer
      have hanswer' := h.nextAnswer_eq.trans hanswer
      cases a with
      | accepted =>
        exact ⟨_, _, exec_output_of_accepted u2 u3 hoffer hanswer, exec_output_of_accepted u2 u3 hoffer' hanswer',
          ((h.setSinkQ rest).emit x).setIp n⟩
      | sinkFailed =>
        exact ⟨_, _, exec_output_of_sinkFailed u2 u3 hoffer hanswer,
          exec_output_of_sinkFailed u2 u3 hoffer' hanswer', (h.setSinkQ rest).raise _⟩

/-- Twins that execute the same instruction are twins afterwards. -/
theorem exec (i : Instr) : TwinAnswer (exec i s) (exec i t) := by
  have hbinary {f : Int → Int → Int} {bounded : Bool} {k : Kind} {o1 o2 o3 : Operand} :
      TwinAnswer (Machine.complete s (Machine.binaryToCell (f3Result s.cfg f bounded) k o1 o2 o3 s))
        (Machine.complete t (Machine.binaryToCell (f3Result t.cfg f bounded) k o1 o2 o3 t)) := by
    rw [h.f3Result_eq]
    exact h.complete (h.binaryToCell _ _ _ _ _)
  cases i with
  | add o1 o2 o3 =>
    rw [exec_add_eq, exec_add_eq]
    exact hbinary
  | multiply o1 o2 o3 =>
    rw [exec_multiply_eq, exec_multiply_eq]
    exact hbinary
  | testLessThan o1 o2 o3 =>
    rw [exec_testLessThan_eq, exec_testLessThan_eq]
    exact hbinary
  | testEqual o1 o2 o3 =>
    rw [exec_testEqual_eq, exec_testEqual_eq]
    exact hbinary
  | input o1 u2 u3 => exact h.exec_input o1 u2 u3
  | output o1 u2 u3 => exact h.exec_output o1 u2 u3
  | jumpIfTrue o1 o2 u3 => exact h.complete (h.jump condTrue o1 o2)
  | jumpIfFalse o1 o2 u3 => exact h.complete (h.jump condFalse o1 o2)
  | adjustBase o1 u2 u3 => exact h.complete (h.adjustBase o1)
  | halt u1 u2 u3 => exact h.complete h.halt

theorem step : TwinAnswer (step s) (step t) := by
  by_cases hs : s.status = .running
  · have hs' := h.status_eq.trans hs
    cases hfetch : fetchInstr s with
    | ok i =>
      rw [step_running hs hfetch, step_running hs' (h.fetchInstr_eq.trans hfetch)]
      exact h.exec i
    | error f =>
      exact ⟨_, _, step_fetch_fault hs hfetch, step_fetch_fault hs' (h.fetchInstr_eq.trans hfetch), h.raise f⟩
  · exact ⟨s, t, step_of_not_running hs, step_of_not_running (by rwa [h.status_eq]), h⟩

end

end Twin

/-- Settles O55: by simulation. Twins read the same cells and so fetch and check alike, and every state operation, the
store with its growth among them, takes twins to twins (`Twin.step`). -/
theorem theExtentCannotBeObserved : Obligations.TheExtentCannotBeObserved := by
  intro s s' t hs ht heq hstep
  obtain ⟨_, t', hleft, hright, htwin⟩ := Twin.step ⟨heq, hs, ht⟩
  cases hstep.symm.trans hleft
  exact ⟨t', hright, htwin.eq, htwin.left_wf, htwin.right_wf⟩

end Sys2Proof.Machine

/-! ### Lines of text (44_io.md R182, R184) -/

namespace Sys2Proof.Machine

/-! What a line is once the whitespace around it is gone. -/

/-- Whitespace around a body that has none of its own is what is removed. -/
theorem trim_append {before body after : List Char} (hbefore : ∀ c ∈ before, c.isWhitespace = true)
    (hafter : ∀ c ∈ after, c.isWhitespace = true) (hbody : ∀ c ∈ body, c.isWhitespace = false) (hne : body ≠ []) :
    trim (before ++ body ++ after) = body := by
  have hstop (l : List Char) (hl : ∀ c ∈ l, c.isWhitespace = false) (hnil : l ≠ []) (rest : List Char) :
      (l ++ rest).dropWhile Char.isWhitespace = l ++ rest := by
    cases l with
    | nil => exact absurd rfl hnil
    | cons c cs => simp [hl c]
  have hback : body.reverse.dropWhile Char.isWhitespace = body.reverse := by
    simpa using hstop body.reverse (by simpa using hbody) (by simpa using hne) []
  rw [trim, List.append_assoc, List.dropWhile_append_of_pos hbefore, hstop body hbody hne, List.reverse_append,
    List.dropWhile_append_of_pos (by simpa using hafter), hback, List.reverse_reverse]

/-- A line is its trimmed body with whitespace around it. -/
theorem exists_eq_append_trim (line : List Char) :
    ∃ before after : List Char, (∀ c ∈ before, c.isWhitespace = true) ∧ (∀ c ∈ after, c.isWhitespace = true) ∧
      line = before ++ trim line ++ after := by
  have hafter : (line.dropWhile Char.isWhitespace).rdropWhile Char.isWhitespace = trim line := rfl
  refine ⟨line.takeWhile Char.isWhitespace, (line.dropWhile Char.isWhitespace).rtakeWhile Char.isWhitespace,
    fun c => List.mem_takeWhile_imp, fun c => List.mem_rtakeWhile_imp, ?_⟩
  rw [← hafter, List.append_assoc, List.rdropWhile_append_rtakeWhile, List.takeWhile_append_dropWhile]

/-! The digits of a number. -/

/-- The decimal digit characters are those of the numbers below 10. -/
theorem exists_digitChar_of_isDigit {c : Char} (h : c.isDigit = true) : ∃ d, d < 10 ∧ c = Nat.digitChar d := by
  obtain ⟨hlow, hhigh⟩ := Char.isDigit_iff_toNat.mp h
  change 48 ≤ c.toNat at hlow
  change c.toNat ≤ 57 at hhigh
  refine ⟨c.toNat - 48, by omega, Char.toNat_inj.mp ?_⟩
  rw [Nat.toNat_digitChar_of_lt_ten (by omega)]
  omega

/-- A digit character is no whitespace and no sign. -/
theorem digitChar_not_special {d : Nat} (h : d < 10) :
    (Nat.digitChar d).isWhitespace = false ∧ Nat.digitChar d ≠ '-' ∧ Nat.digitChar d ≠ '+' := by
  interval_cases d <;> decide

theorem digitsFrom_digitChars {digits : List Nat} (h : ∀ d ∈ digits, d < 10) (acc : Nat) :
    digitsFrom acc (digits.map Nat.digitChar) = some (digits.foldl (fun v d => 10 * v + d) acc) := by
  induction digits generalizing acc with
  | nil => rfl
  | cons d ds ih =>
    obtain ⟨hd, hds⟩ := List.forall_mem_cons.mp h
    have hisDigit : (Nat.digitChar d).isDigit = true := by rw [Nat.isDigit_digitChar, decide_eq_true hd]
    have hvalue : (Nat.digitChar d).toNat - '0'.toNat = d := Nat.toNat_digitChar_sub_48_of_lt_ten hd
    rw [List.map_cons, digitsFrom, if_pos hisDigit, hvalue, ih hds, List.foldl_cons]

theorem exists_digits_of_digitsFrom {acc n : Nat} {cs : List Char} (h : digitsFrom acc cs = some n) :
    ∃ digits : List Nat, (∀ d ∈ digits, d < 10) ∧ cs = digits.map Nat.digitChar := by
  induction cs generalizing acc with
  | nil => exact ⟨[], by simp, rfl⟩
  | cons c cs ih =>
    rw [digitsFrom] at h
    split at h
    · next hc =>
      obtain ⟨d, hd, rfl⟩ := exists_digitChar_of_isDigit hc
      obtain ⟨ds, hds, rfl⟩ := ih h
      exact ⟨d :: ds, List.forall_mem_cons.mpr ⟨hd, hds⟩, rfl⟩
    · cases h

theorem parseDigits_digitChars {digits : List Nat} (hne : digits ≠ []) (h : ∀ d ∈ digits, d < 10) :
    parseDigits (digits.map Nat.digitChar) = some (digits.foldl (fun v d => 10 * v + d) 0) := by
  cases digits with
  | nil => exact absurd rfl hne
  | cons d ds => exact digitsFrom_digitChars h 0

theorem exists_digits_of_parseDigits {n : Nat} {cs : List Char} (h : parseDigits cs = some n) :
    ∃ digits : List Nat, digits ≠ [] ∧ (∀ d ∈ digits, d < 10) ∧ cs = digits.map Nat.digitChar := by
  cases cs with
  | nil => cases h
  | cons c cs =>
    obtain ⟨digits, hlt, heq⟩ := exists_digits_of_digitsFrom h
    refine ⟨digits, ?_, hlt, heq⟩
    rintro rfl
    cases heq

/-! The number in a line. -/

theorem parseInteger_minus (plus : Bool) (cs : List Char) :
    parseInteger plus ('-' :: cs) = (parseDigits cs).map (fun n : Nat => -(n : Int)) := rfl

theorem parseInteger_plus (plus : Bool) (cs : List Char) :
    parseInteger plus ('+' :: cs) = if plus then (parseDigits cs).map (fun n : Nat => (n : Int)) else none := rfl

/-- Digits without a sign are read as they stand. -/
theorem parseInteger_digitChars (plus : Bool) {digits : List Nat} (hne : digits ≠ []) (h : ∀ d ∈ digits, d < 10) :
    parseInteger plus (digits.map Nat.digitChar) = some ((digits.foldl (fun v d => 10 * v + d) 0 : Nat) : Int) := by
  have hparse := parseDigits_digitChars hne h
  cases digits with
  | nil => exact absurd rfl hne
  | cons d ds =>
    obtain ⟨-, hminus, hplus⟩ := digitChar_not_special (h d List.mem_cons_self)
    rw [parseInteger, hparse, Option.map_some]
    · rintro cs heq
      exact hminus (List.cons.inj heq).1
    · rintro cs heq
      exact hplus (List.cons.inj heq).1

/-- What is read as a number has the form that R182 asks for. -/
theorem isNumeral_of_parseInteger {plus : Bool} {body : List Char} {v : Int} (h : parseInteger plus body = some v) :
    IsNumeral body := by
  unfold parseInteger at h
  split at h
  · obtain ⟨n, hn, -⟩ := Option.map_eq_some_iff.mp h
    obtain ⟨digits, hne, hlt, rfl⟩ := exists_digits_of_parseDigits hn
    exact ⟨digits, hne, hlt, .inr (.inl rfl)⟩
  · split at h
    · obtain ⟨n, hn, -⟩ := Option.map_eq_some_iff.mp h
      obtain ⟨digits, hne, hlt, rfl⟩ := exists_digits_of_parseDigits hn
      exact ⟨digits, hne, hlt, .inr (.inr rfl)⟩
    · cases h
  · obtain ⟨n, hn, -⟩ := Option.map_eq_some_iff.mp h
    obtain ⟨digits, hne, hlt, rfl⟩ := exists_digits_of_parseDigits hn
    exact ⟨digits, hne, hlt, .inl rfl⟩

theorem lineItem_of_some {cfg : Config} {line : List Char} {v : Int}
    (h : parseInteger cfg.plusSignOk (trim line) = some v) : lineItem cfg (some line) = itemOfValue cfg v := by
  simp only [lineItem, h]

theorem lineItem_of_none {cfg : Config} {line : List Char}
    (h : parseInteger cfg.plusSignOk (trim line) = none) : lineItem cfg (some line) = .unparseable := by
  simp only [lineItem, h]

/-- Settles O7: the whitespace around a number goes (`trim_append`) and its digits are read (`parseDigits_digitChars`);
a line that is read as a number is one with whitespace around a numeral (`exists_eq_append_trim`,
`isNumeral_of_parseInteger`). -/
theorem inputLinesBecomeItems : Obligations.InputLinesBecomeItems := by
  intro cfg
  refine ⟨fun before after digits n item hbefore hafter hne hlt hn hitem => ?_, fun line hline => ?_, rfl⟩
  · obtain rfl : item = itemOfValue cfg := funext hitem
    have hdigits := parseDigits_digitChars hne hlt
    rw [← hn] at hdigits
    have hblank : ∀ c ∈ digits.map Nat.digitChar, c.isWhitespace = false := fun c hc => by
      obtain ⟨d, hd, rfl⟩ := List.mem_map.mp hc
      exact (digitChar_not_special (hlt d hd)).1
    have htrim := trim_append hbefore hafter hblank (by simpa using hne)
    have htrimSign (sign : Char) (hsign : sign.isWhitespace = false) :=
      trim_append (body := sign :: digits.map Nat.digitChar) hbefore hafter
        (List.forall_mem_cons.mpr ⟨hsign, hblank⟩) (List.cons_ne_nil _ _)
    refine ⟨lineItem_of_some ?_, lineItem_of_some ?_, ?_⟩
    · rw [htrim, parseInteger_digitChars _ hne hlt, hn]
    · rw [htrimSign '-' rfl, parseInteger_minus, hdigits, Option.map_some]
    · have hparse := parseInteger_plus cfg.plusSignOk (digits.map Nat.digitChar)
      rw [← htrimSign '+' rfl, hdigits, Option.map_some] at hparse
      split at hparse
      · next hplus => rw [lineItem_of_some hparse, if_pos hplus]
      · next hplus => rw [lineItem_of_none hparse, if_neg hplus]
  · cases hparse : parseInteger cfg.plusSignOk (trim line) with
    | none => exact lineItem_of_none hparse
    | some v =>
      obtain ⟨before, after, hbefore, hafter, heq⟩ := exists_eq_append_trim line
      exact absurd (isNumeral_of_parseInteger hparse) (hline before _ after hbefore hafter heq)

end Sys2Proof.Machine
